-- ==== Sys2Proof/Word.lean ====
section
/-! DEFINITION. The bit vectors of the arc 128-bit integer core and nothing else.

`v.toNat` is the spec's `U(v)` and `v.toInt` its `S(v)` (R10): bit 0 is the least significant bit.
Every function a test could show wrong stands in a file under `Machine/`. -/

namespace Sys2Proof

/-- A 128-bit word, read as `U128` or as `I128` (R5, R20, R21). -/
abbrev Word := BitVec 128

/-- One 64-bit half of a word (R5, "Limb" of the glossary). -/
abbrev Limb := BitVec 64

/-- Half a limb, used only inside the multiplier (R5, R190). -/
abbrev HalfLimb := BitVec 32

/-- A character of the formatter's string (R6, R52). -/
abbrev Byte := BitVec 8

/-- A 16-bit command word (R6, R70). -/
abbrev Cmd := BitVec 16

end Sys2Proof
end

