-- ==== Sys2Proof/Config.lean ====
section
/-! DEFINITION. What the spec fixes for an implementation, its two OPEN parameters at their defaults,
and the one free value. -/

namespace Sys2Proof

/-- The two readings of `x % 0` (90_conflicts.md C1, 93_implementation_defined.md U3). -/
inductive ModByZero where
  | zero
  | dividend
deriving DecidableEq, Repr

namespace Config

/-- OPEN parameter `MOD_BY_ZERO` at the value 90_conflicts.md C1 chooses (R5, R6, D23; log 4). -/
def modByZero : ModByZero := .zero

/-- OPEN parameter `SHAMT_W`: the width of the shift-amount field `N` (R6, D7; log 5). -/
def shamtW : Nat := 8

/-- `STR_MAX`: the capacity in characters of the formatter's output (R6, R31). -/
def strMax : Nat := 40

/-- `CHARSET`: the byte of digit 0 (R6, R254). -/
def digitZero : Nat := 0x30

/-- `CHARSET`: the byte of the minus sign (R6, R254). -/
def minusSign : Byte := 0x2D

/-- FREE VALUE: what stands on port `B` when a host script sends a command that ignores it. The host
need not drive it (R30, R71, D25, U14), so nothing may be assumed of it; the argument is the number of
transactions performed before this one (log 6). -/
opaque undrivenB : Nat → Word

end Config

end Sys2Proof
end

