-- ==== Sys2Proof/Syntax.lean ====
section
/-! DEFINITION. The twenty-seven operations of the core (R73), one constructor per row of
`spec/opcode_table.json`. The two operand words travel on the ports beside the command (R30, R75); the
shift amount is the only operand inside a command word (R74). -/

namespace Sys2Proof

/-- An operation. `n` is the unsigned shift amount `N` of a format S command (R74). -/
inductive Instr where
  | add
  | sub
  | mul
  | div
  | sdiv
  | mod
  | smod
  | cmp
  | scmp
  | eq
  | lt
  | slt
  | le
  | sle
  | gt
  | sgt
  | ge
  | sge
  | shl (n : Nat)
  | shr (n : Nat)
  | sar (n : Nat)
  | and
  | or
  | xor
  | not
  | fmt
  | sfmt
deriving DecidableEq, Repr

end Sys2Proof
end

