-- ==== Sys2Proof/WellFormed.lean ====
section
/-! DEFINITION. Which operations a command word can spell: the shift amount fits the field `N`
(R70, R74); every other operation has no field to check. -/

namespace Sys2Proof

/-- The shift amount is one the field `N` holds: 0 to 255 (R74). -/
def shamtFits (n : Nat) : Bool := decide (n < 2 ^ Config.shamtW)

/-- Some command word spells the operation. -/
def Instr.wellFormed : Instr → Bool
  | .add => true
  | .sub => true
  | .mul => true
  | .div => true
  | .sdiv => true
  | .mod => true
  | .smod => true
  | .cmp => true
  | .scmp => true
  | .eq => true
  | .lt => true
  | .slt => true
  | .le => true
  | .sle => true
  | .gt => true
  | .sgt => true
  | .ge => true
  | .sge => true
  | .shl n => shamtFits n
  | .shr n => shamtFits n
  | .sar n => shamtFits n
  | .and => true
  | .or => true
  | .xor => true
  | .not => true
  | .fmt => true
  | .sfmt => true

end Sys2Proof
end

