-- ==== Sys2Proof/Decode.lean ====
section
/-! DEFINITION. The decoder (R79), from the match and mask columns of R73, and after it the encoder,
from the field columns of R70 to R74. Decoding reads the command word only, never an operand. -/

namespace Sys2Proof

/-- Why a command word spells no operation: the four classes of R76, in the order the fields stand. -/
inductive Reserved where
  | unit
  | func
  | sign
  | amount
deriving DecidableEq, Repr

/-- What a command word decodes to. -/
inductive Decoded where
  | instr (i : Instr)
  | reserved (why : Reserved)
deriving DecidableEq, Repr

/-- `UNIT`, bits 15:12 (R70). -/
def unitOf (w : Cmd) : BitVec 4 := w.extractLsb' 12 4

/-- `FUNC`, bits 11:9 (R70). -/
def funcOf (w : Cmd) : BitVec 3 := w.extractLsb' 9 3

/-- `S`, bit 8 (R70). -/
def signOf (w : Cmd) : BitVec 1 := w.extractLsb' 8 1

/-- `N`, bits 7:0 (R70, R74). -/
def amountOf (w : Cmd) : BitVec 8 := w.extractLsb' 0 8

/-- A row of the operation map: the word `w` selects it when `w &&& mask = pat` (R73). -/
structure Row where
  pat : Cmd
  mask : Cmd
  make : Nat → Instr

/-- The row's test (R79 step 1). -/
def Row.matches (r : Row) (w : Cmd) : Bool := w &&& r.mask == r.pat

/-- A format R or format U row: every bit is fixed, `N` at zero (R71). -/
def fixedRow (pat : Cmd) (i : Instr) : Row := ⟨pat, 0xFFFF, fun _ => i⟩

/-- A format S row: `N` is the shift amount (R71, R74). -/
def shiftRow (pat : Cmd) (make : Nat → Instr) : Row := ⟨pat, 0xFF00, make⟩

/-- R73: adder, subtractor, multiplier, divider. -/
def arithmeticRows : List Row :=
  [fixedRow 0x1000 .add, fixedRow 0x2000 .sub, fixedRow 0x3000 .mul, fixedRow 0x4000 .div,
   fixedRow 0x4100 .sdiv, fixedRow 0x4200 .mod, fixedRow 0x4300 .smod]

/-- R73: comparator. -/
def comparatorRows : List Row :=
  [fixedRow 0x5000 .cmp, fixedRow 0x5100 .scmp, fixedRow 0x5200 .eq, fixedRow 0x5400 .lt,
   fixedRow 0x5500 .slt, fixedRow 0x5600 .le, fixedRow 0x5700 .sle, fixedRow 0x5800 .gt,
   fixedRow 0x5900 .sgt, fixedRow 0x5A00 .ge, fixedRow 0x5B00 .sge]

/-- R73: the two shifters. -/
def shifterRows : List Row :=
  [shiftRow 0x6000 .shl, shiftRow 0x7000 .shr, shiftRow 0x7100 .sar]

/-- R73: bitwise logic and the decimal formatter. -/
def logicAndFormatRows : List Row :=
  [fixedRow 0x8000 .and, fixedRow 0x8200 .or, fixedRow 0x8400 .xor, fixedRow 0x8600 .not,
   fixedRow 0x9000 .fmt, fixedRow 0x9100 .sfmt]

/-- The operation map (R73). -/
def rows : List Row := arithmeticRows ++ comparatorRows ++ shifterRows ++ logicAndFormatRows

/-- How many `FUNC` values a unit defines, counted from 0 (R76). -/
def funcCount (unit : Nat) : Nat :=
  match unit with
  | 4 => 2
  | 5 => 6
  | 8 => 4
  | _ => 1

/-- `S = 1` has a meaning: the two readings of the operands give different results (R73, R76). -/
def hasSignedForm (unit func : Nat) : Bool :=
  unit == 4 || (unit == 5 && func != 1) || unit == 7 || unit == 9

/-- The class of R76 a word falls in when no row matches it. -/
def reservedClass (w : Cmd) : Reserved :=
  let unit := (unitOf w).toNat
  let func := (funcOf w).toNat
  if unit = 0 ∨ 0xA ≤ unit then .unit
  else if funcCount unit ≤ func then .func
  else if signOf w = 1 ∧ hasSignedForm unit func = false then .sign
  else .amount

/-- The decoding procedure (R79): the row that matches, with the amount of a format S command; a word
no row matches is reserved (R76). -/
def decode (w : Cmd) : Decoded :=
  match rows.find? (fun r => r.matches w) with
  | some r => .instr (r.make (amountOf w).toNat)
  | none => .reserved (reservedClass w)

/-- `decode` with the host's numbering: bit 0 is the command word's least significant bit, and the bits
above `nbits` are 0. A command is exactly 16 bits (R78), so a longer one is no command. -/
def decodeTableWord (nbits w : Nat) : Option Instr :=
  if nbits ≤ 16 then
    match decode (BitVec.ofNat 16 (w % 2 ^ nbits)) with
    | .instr i => some i
    | .reserved _ => none
  else none

/-- A command word from its four fields (R70). -/
def cmdWord (unit : BitVec 4) (func : BitVec 3) (sign : BitVec 1) (amount : BitVec 8) : Cmd :=
  unit ++ func ++ sign ++ amount

/-- The command word of an operation, from the `UNIT`, `FUNC`, `S` and format columns of R73. -/
def encode : Instr → Cmd
  | .add => cmdWord 1 0 0 0
  | .sub => cmdWord 2 0 0 0
  | .mul => cmdWord 3 0 0 0
  | .div => cmdWord 4 0 0 0
  | .sdiv => cmdWord 4 0 1 0
  | .mod => cmdWord 4 1 0 0
  | .smod => cmdWord 4 1 1 0
  | .cmp => cmdWord 5 0 0 0
  | .scmp => cmdWord 5 0 1 0
  | .eq => cmdWord 5 1 0 0
  | .lt => cmdWord 5 2 0 0
  | .slt => cmdWord 5 2 1 0
  | .le => cmdWord 5 3 0 0
  | .sle => cmdWord 5 3 1 0
  | .gt => cmdWord 5 4 0 0
  | .sgt => cmdWord 5 4 1 0
  | .ge => cmdWord 5 5 0 0
  | .sge => cmdWord 5 5 1 0
  | .shl n => cmdWord 6 0 0 (BitVec.ofNat 8 n)
  | .shr n => cmdWord 7 0 0 (BitVec.ofNat 8 n)
  | .sar n => cmdWord 7 0 1 (BitVec.ofNat 8 n)
  | .and => cmdWord 8 0 0 0
  | .or => cmdWord 8 1 0 0
  | .xor => cmdWord 8 2 0 0
  | .not => cmdWord 8 3 0 0
  | .fmt => cmdWord 9 0 0 0
  | .sfmt => cmdWord 9 0 1 0

end Sys2Proof
end

