-- ==== Sys2Proof/Machine/State.lean ====
section
/-! DEFINITION. The state of the machine as plain data.

The core keeps no architectural state (R28, R33 to R37): no registers, program counter, flags, control
registers or memory. What a model has to hold is the two ports (R30, R31), the requests the host has
yet to make (R9, D2), and, since the model records a history, the list of transactions performed (R28).
The guide's rule that each agent stands in State puts the host's request stream here. -/

namespace Sys2Proof.Machine

/-- A request on the request port (R30): the command word and the two operand words. Bit `i` of a field
is bit `i` of the word (R51). -/
structure Request where
  cmd : Cmd
  a : Word
  b : Word
deriving DecidableEq, Repr

/-- The three-way answer of a comparison (R120, R121). -/
inductive Order where
  | less
  | equal
  | greater
deriving DecidableEq, Repr

/-- The four response kinds W, O, P and S (R31). -/
inductive Kind where
  | word
  | order
  | truth
  | text
deriving DecidableEq, Repr

/-- A response (R31, R32): a sum of the four kinds, so that a field of another kind has no value
(U5, D9). A string is its characters in reading order; the port's `LEN` and zero padding are views of
it (R254), in `Machine/Operands.lean`. -/
inductive Response where
  | word (r : Word)
  | order (c : Order)
  | truth (t : Bool)
  | text (chars : List Byte)
deriving DecidableEq, Repr

/-- A transaction performed: one request and the one response it determines (R8). -/
structure Transaction where
  request : Request
  response : Response
deriving DecidableEq, Repr

/-- The machine. -/
structure State where
  /-- The host's requests, in the order it makes them (R57, D2). The first one stands on the request
  port; the next one is made when the response to it has been delivered (R292). -/
  requests : List Request
  /-- The response port (R31): the response last delivered, none before the first (R39). -/
  response : Option Response
  /-- The transactions performed since reset, oldest first (R28). -/
  history : List Transaction
deriving DecidableEq, Repr

/-- Faults. No operation of the core raises one (R270); the one reason here is the host's. -/
inductive Fault where
  /-- A host script reads a name nothing has written (R291, D21, U13). Raised by
  `Machine/Script.lean`, never by `exec` or `step`. Safe: the run stops instead of inventing a value. -/
  | unwrittenValue (name : String)
deriving DecidableEq, Repr

/-- Refusals: the machine, or the host's side of it, takes no step. -/
inductive Refusal where
  /-- An instruction without a meaning. Raised by a refused arm of `exec`; there is none. Safe. -/
  | notModelled (mnemonic : String)
  /-- Nothing stands on the request port, and the core never initiates anything (R9). Raised by
  `step` and by `exec`. Safe: nothing is claimed of an idle core. -/
  | noRequest
  /-- The command word is reserved: no step is taken and the refusal is recorded here (R76, R272, D8,
  U4). Raised by `step`. Safe: nothing can be proved of a run that sends one. -/
  | reservedCommand (cmd : Cmd) (why : Reserved)
  /-- A request before the response to the one before (R292, U12). Raised by `present`. Safe. -/
  | busy
  /-- A negative shift amount, of which no command may be formed (U1, R74). Raised by
  `Machine/Script.lean`. Safe. -/
  | negativeShift (amount : Int)
  /-- A shift amount above 255, which the field `N` does not hold (R74, R81). Raised by
  `Machine/Script.lean`. Safe. -/
  | shiftTooLarge (amount : Int)
  /-- The host uses a value of another kind than the place asks for, for example an order as an
  operand word (R32, U5). Raised by `Machine/Script.lean`. Safe. -/
  | wrongKind (name : String)
  /-- A line whose operation does not have the line's format (R71, R81). Raised by
  `Machine/Script.lean`. Safe. -/
  | malformedLine
  /-- A literal that no 128-bit word holds under either reading (R81; log 8). Raised by
  `Machine/Script.lean`. Safe. -/
  | badLiteral
  /-- A host script did not end within the steps it was given: the model's own bound, of which nothing
  follows for the machine. Raised by `Machine/Script.lean`. Safe. -/
  | scriptUnfinished
deriving DecidableEq, Repr

/-- The machine right after reset (R39, R290): no request, no response, no transaction. -/
def State.reset : State where
  requests := []
  response := none
  history := []

end Sys2Proof.Machine
end

