-- ==== Sys2Proof/Machine/Operands.lean ====
section
/-! DEFINITION. Words and limbs, the conversions of document §4.1, the operand forms of the commands,
and the port-level views of a response. -/

namespace Sys2Proof.Machine

/-- `from_parts(h, l)` (R100): the word of value `U(h)·2^64 + U(l)`. -/
def fromParts (h l : Limb) : Word := h ++ l

/-- `high(v) = v[127:64]` (R101). -/
def high (v : Word) : Limb := v.extractLsb' 64 64

/-- `low(v) = v[63:0]` (R101). -/
def low (v : Word) : Limb := v.extractLsb' 0 64

/-- The limb all of whose bits are the sign: the fill of R178 and R233. -/
def fillLimb (negative : Bool) : Limb := if negative then BitVec.allOnes 64 else 0

/-- `U128::MIN` (R23). -/
def u128Min : Word := fromParts 0 0

/-- `U128::MAX` (R23). -/
def u128Max : Word := fromParts 0xFFFFFFFFFFFFFFFF 0xFFFFFFFFFFFFFFFF

/-- `I128::MIN` (R23). -/
def i128Min : Word := fromParts 0x8000000000000000 0

/-- `I128::MAX` (R23). -/
def i128Max : Word := fromParts 0x7FFFFFFFFFFFFFFF 0xFFFFFFFFFFFFFFFF

/-- `is_negative(v)` of a word read as `I128` (R24): bit 127. -/
def isNegative (v : Word) : Bool := v.getLsbD 127

/-- Construction from an unsigned native integer of `k` bits, `k ≤ 64` (R102): all-zero high limb. -/
def widenUnsigned {k : Nat} (u : BitVec k) : Word := fromParts 0 (u.setWidth 64)

/-- Construction from a signed native integer of `k` bits, `k ≤ 64` (R103): the sign fills the high
limb, whichever the target type. -/
def widenSigned {k : Nat} (s : BitVec k) : Word := fromParts (fillLimb s.msb) (s.signExtend 64)

/-- Narrowing to a native width of `k` bits, `k ≤ 64` (R104): the low bits of the low limb. -/
def narrow (k : Nat) (v : Word) : BitVec k := (low v).setWidth k

/-- The three formats (R71): two operands, one operand, shift. -/
inductive Format where
  | r
  | u
  | s
deriving DecidableEq, Repr

/-- The format column of R73. -/
def formatOf : Instr → Format
  | .add => .r
  | .sub => .r
  | .mul => .r
  | .div => .r
  | .sdiv => .r
  | .mod => .r
  | .smod => .r
  | .cmp => .r
  | .scmp => .r
  | .eq => .r
  | .lt => .r
  | .slt => .r
  | .le => .r
  | .sle => .r
  | .gt => .r
  | .sgt => .r
  | .ge => .r
  | .sge => .r
  | .shl _ => .s
  | .shr _ => .s
  | .sar _ => .s
  | .and => .r
  | .or => .r
  | .xor => .r
  | .not => .u
  | .fmt => .u
  | .sfmt => .u

/-- The response kind of each operation (R32, and the response kind column of R73). -/
def kindOf : Instr → Kind
  | .add => .word
  | .sub => .word
  | .mul => .word
  | .div => .word
  | .sdiv => .word
  | .mod => .word
  | .smod => .word
  | .cmp => .order
  | .scmp => .order
  | .eq => .truth
  | .lt => .truth
  | .slt => .truth
  | .le => .truth
  | .sle => .truth
  | .gt => .truth
  | .sgt => .truth
  | .ge => .truth
  | .sge => .truth
  | .shl _ => .word
  | .shr _ => .word
  | .sar _ => .word
  | .and => .word
  | .or => .word
  | .xor => .word
  | .not => .word
  | .fmt => .text
  | .sfmt => .text

/-- The kind of a response (R31). -/
def responseKind : Response → Kind
  | .word _ => .word
  | .order _ => .order
  | .truth _ => .truth
  | .text _ => .text

/-- `C`, one-hot: bit 0 less, bit 1 equal, bit 2 greater (R31, R122). -/
def orderCode : Order → BitVec 3
  | .less => 0b001
  | .equal => 0b010
  | .greater => 0b100

/-- The port field `R` (R31); a field not of the response's kind holds no value (R32). -/
def portR : Response → Option Word
  | .word r => some r
  | .order _ => none
  | .truth _ => none
  | .text _ => none

/-- The port field `C` (R31). -/
def portC : Response → Option (BitVec 3)
  | .word _ => none
  | .order c => some (orderCode c)
  | .truth _ => none
  | .text _ => none

/-- The port field `T` (R31): 1 is true. -/
def portT : Response → Option (BitVec 1)
  | .word _ => none
  | .order _ => none
  | .truth t => some (BitVec.ofBool t)
  | .text _ => none

/-- The port field `LEN` (R31): the number of characters. -/
def portLen : Response → Option (BitVec 6)
  | .word _ => none
  | .order _ => none
  | .truth _ => none
  | .text chars => some (BitVec.ofNat 6 chars.length)

/-- The port field `STR[i]`, `i` below 40 (R31, R52, R254): the characters, then zero bytes. -/
def portStr (rsp : Response) (i : Fin Config.strMax) : Option Byte :=
  match rsp with
  | .word _ => none
  | .order _ => none
  | .truth _ => none
  | .text chars => some (chars.getD i 0)

end Sys2Proof.Machine
end

