-- ==== Sys2Proof/Machine/Flags.lean ====
section
/-! DEFINITION. The core has no flag: no operation writes a carry, borrow, overflow, zero or sign that
anything later reads (R35, R152). What stands here is the carry and the borrow inside one ADD or SUB, and
the two-way answers read off a three-way one (R122 to R132). -/

namespace Sys2Proof.Machine

/-- The carry into the high limb, by the wrapped-sum test of R150. -/
def carryOf (aLow wrappedLow : Limb) : Limb := if wrappedLow.toNat < aLow.toNat then 1 else 0

/-- The borrow from the high limb, R151. -/
def borrowOf (aLow bLow : Limb) : Limb := if aLow.toNat < bLow.toNat then 1 else 0

/-- `<`: the order is less (R125, R129). -/
def Order.isLt : Order → Bool
  | .less => true
  | .equal => false
  | .greater => false

/-- `<=`: the order is less or equal (R126, R130). -/
def Order.isLe : Order → Bool
  | .less => true
  | .equal => true
  | .greater => false

/-- `>`: the order is greater (R127, R131). -/
def Order.isGt : Order → Bool
  | .less => false
  | .equal => false
  | .greater => true

/-- `>=`: the order is greater or equal (R128, R132). -/
def Order.isGe : Order → Bool
  | .less => false
  | .equal => true
  | .greater => true

end Sys2Proof.Machine
end

