-- ==== Sys2Proof/Machine/Ops.lean ====
section
/-! DEFINITION. The operations on State: performing a transaction, and what the host and the reset line
do to the ports.

There is no taking of an exception and no return from one: no operation raises, no interrupt arrives, no
state is saved and no handler is entered (R270, R273, R275, R276). -/

namespace Sys2Proof.Machine

/-- What every operation answers: the three outcomes of a step. -/
abbrev Result := Host.Outcome State Fault Refusal

/-- The request on the port (R30). -/
def State.port (s : State) : Option Request := s.requests.head?

/-- The state after the request `r` at the head of the stream has been answered with `rsp` and the host
goes on with `rest`: the response is delivered whole, the transaction is recorded (R27, R54, R57). -/
def State.answered (s : State) (r : Request) (rsp : Response) (rest : List Request) : State where
  requests := rest
  response := some rsp
  history := s.history ++ [⟨r, rsp⟩]

/-- Perform one transaction as one indivisible step (R8, R9): the response is `compute` of the two
operand words on the port and of nothing else (R28). -/
def transact (compute : Word → Word → Response) (s : State) : Result :=
  match s.requests with
  | [] => .refused .noRequest
  | r :: rest => .next (s.answered r (compute r.a r.b) rest)

/-- The host makes a request, which it may do only when the one before has been answered (R292, U12). -/
def present (s : State) (r : Request) : Result :=
  if s.requests = [] then .next { s with requests := [r] } else .refused .busy

/-- The host settles on further requests, to be made one at a time after those it has settled on
already (R57, R292). -/
def State.plan (s : State) (rs : List Request) : State := { s with requests := s.requests ++ rs }

/-- Reset asserted at any moment: the request in progress is abandoned, no response is available, and
the host must send again whatever was not answered (R290; log 3). -/
def assertReset (_ : State) : State := State.reset

end Sys2Proof.Machine
end

