-- ==== Sys2Proof/Machine/AddSub.lean ====
section
/-! DEFINITION. Units `u128_adder` and `u128_subtractor` (R150 to R154). -/

namespace Sys2Proof.Machine

/-- Wrapping addition by the limb formulas of R150. -/
def addWord (a b : Word) : Word :=
  let lo := low a + low b
  fromParts (high a + high b + carryOf (low a) lo) lo

/-- Wrapping subtraction by the limb formulas of R151. -/
def subWord (a b : Word) : Word :=
  fromParts (high a - high b - borrowOf (low a) (low b)) (low a - low b)

/-- ADD (R150). -/
def execAdd (s : State) : Result := transact (fun a b => .word (addWord a b)) s

/-- SUB (R151). -/
def execSub (s : State) : Result := transact (fun a b => .word (subWord a b)) s

end Sys2Proof.Machine
end

