-- ==== Sys2Proof/Machine/Logic.lean ====
section
/-! DEFINITION. Unit `u128_bitwise_logic` (R140 to R144): per limb, no carry interaction. -/

namespace Sys2Proof.Machine

/-- Bitwise and (R140). -/
def andWord (a b : Word) : Word := fromParts (high a &&& high b) (low a &&& low b)

/-- Bitwise or (R141). -/
def orWord (a b : Word) : Word := fromParts (high a ||| high b) (low a ||| low b)

/-- Bitwise exclusive or (R142). -/
def xorWord (a b : Word) : Word := fromParts (high a ^^^ high b) (low a ^^^ low b)

/-- Bitwise complement (R143). -/
def notWord (a : Word) : Word := fromParts (~~~high a) (~~~low a)

/-- AND (R140). -/
def execAnd (s : State) : Result := transact (fun a b => .word (andWord a b)) s

/-- OR (R141). -/
def execOr (s : State) : Result := transact (fun a b => .word (orWord a b)) s

/-- XOR (R142). -/
def execXor (s : State) : Result := transact (fun a b => .word (xorWord a b)) s

/-- NOT (R143); `B` is ignored. -/
def execNot (s : State) : Result := transact (fun a _ => .word (notWord a)) s

end Sys2Proof.Machine
end

