-- ==== Sys2Proof/Machine/Adapter.lean ====
section
/-! DEFINITION. The signed adapter (document §4.7): negation and absolute value. Reinterpretation between
`U128` and `I128` changes no bit (R234), so there is nothing to define for it. -/

namespace Sys2Proof.Machine

/-- `neg(v)`: NOT, then add one (R230). -/
def neg (v : Word) : Word := addWord (notWord v) (fromParts 0 1)

/-- `abs(v)`, a pattern to be read as `U128` (R232). -/
def abs (v : Word) : Word := if isNegative v then neg v else v

end Sys2Proof.Machine
end

