-- ==== Sys2Proof/Machine/Comparator.lean ====
section
/-! DEFINITION. Unit `u128_comparator` (R120 to R132). -/

namespace Sys2Proof.Machine

/-- `ucmp(a, b)`: high limbs first, then low limbs, both as unsigned (R120). -/
def ucmp (a b : Word) : Order :=
  if (high a).toNat < (high b).toNat then .less
  else if (high b).toNat < (high a).toNat then .greater
  else if (low a).toNat < (low b).toNat then .less
  else if (low b).toNat < (low a).toNat then .greater
  else .equal

/-- `scmp(a, b)`: high limbs first as signed, then low limbs as unsigned (R121). -/
def scmp (a b : Word) : Order :=
  if (high a).toInt < (high b).toInt then .less
  else if (high b).toInt < (high a).toInt then .greater
  else if (low a).toNat < (low b).toNat then .less
  else if (low b).toNat < (low a).toNat then .greater
  else .equal

/-- Limb-wise equality (R124). -/
def eqWord (a b : Word) : Bool := high a == high b && low a == low b

/-- CMP (R122). -/
def execCmp (s : State) : Result := transact (fun a b => .order (ucmp a b)) s

/-- SCMP (R123). -/
def execScmp (s : State) : Result := transact (fun a b => .order (scmp a b)) s

/-- EQ (R124). -/
def execEq (s : State) : Result := transact (fun a b => .truth (eqWord a b)) s

/-- LT (R125). -/
def execLt (s : State) : Result := transact (fun a b => .truth (ucmp a b).isLt) s

/-- LE (R126). -/
def execLe (s : State) : Result := transact (fun a b => .truth (ucmp a b).isLe) s

/-- GT (R127). -/
def execGt (s : State) : Result := transact (fun a b => .truth (ucmp a b).isGt) s

/-- GE (R128). -/
def execGe (s : State) : Result := transact (fun a b => .truth (ucmp a b).isGe) s

/-- SLT (R129). -/
def execSlt (s : State) : Result := transact (fun a b => .truth (scmp a b).isLt) s

/-- SLE (R130). -/
def execSle (s : State) : Result := transact (fun a b => .truth (scmp a b).isLe) s

/-- SGT (R131). -/
def execSgt (s : State) : Result := transact (fun a b => .truth (scmp a b).isGt) s

/-- SGE (R132). -/
def execSge (s : State) : Result := transact (fun a b => .truth (scmp a b).isGe) s

end Sys2Proof.Machine
end

