-- ==== Sys2Proof/Machine/Shift.lean ====
section
/-! DEFINITION. Units `u128_shift_left` and `u128_shift_right` (R170 to R184). The tests stand in the
order of 90_conflicts.md C5 and R274, so that every limb shift has an amount from 0 to 63. -/

namespace Sys2Proof.Machine

/-- `shl(v, n)` (R170). -/
def shl (v : Word) (n : Nat) : Word :=
  if 128 ≤ n then fromParts 0 0
  else if n = 0 then v
  else if 64 ≤ n then fromParts (low v <<< (n - 64)) 0
  else fromParts ((high v <<< n) ||| (low v >>> (64 - n))) (low v <<< n)

/-- `shr(v, n)` (R174). -/
def shr (v : Word) (n : Nat) : Word :=
  if 128 ≤ n then fromParts 0 0
  else if n = 0 then v
  else if 64 ≤ n then fromParts 0 (high v >>> (n - 64))
  else fromParts (high v >>> n) ((low v >>> n) ||| (high v <<< (64 - n)))

/-- `sar64(x, k)` (R11): the limb of signed value `floor(S(x) / 2^k)`. -/
def sar64 (x : Limb) (k : Nat) : Limb := x.sshiftRight k

/-- `sar(v, n)` (R178). -/
def sar (v : Word) (n : Nat) : Word :=
  let fill := fillLimb (isNegative v)
  if 128 ≤ n then fromParts fill fill
  else if n = 0 then v
  else if 64 ≤ n then fromParts fill (sar64 (high v) (n - 64))
  else fromParts (sar64 (high v) n) ((low v >>> n) ||| (high v <<< (64 - n)))

/-- SHL (R172); `B` is ignored. -/
def execShl (n : Nat) (s : State) : Result := transact (fun a _ => .word (shl a n)) s

/-- SHR (R176); `B` is ignored. -/
def execShr (n : Nat) (s : State) : Result := transact (fun a _ => .word (shr a n)) s

/-- SAR (R180); `B` is ignored. -/
def execSar (n : Nat) (s : State) : Result := transact (fun a _ => .word (sar a n)) s

end Sys2Proof.Machine
end

