-- ==== Sys2Proof/Machine/Divide.lean ====
section
/-! DEFINITION. Unit `u128_divider` (R200 to R209): binary long division, the unsigned kernel and the
signed path over it. -/

namespace Sys2Proof.Machine

/-- The `while` of R200: from `s` on, the largest shift at which the divisor loses no bit and does not
exceed the dividend. The first argument bounds the search; 127 suffice from `s = 0`. -/
def searchShift (a b : Word) : Nat → Nat → Nat
  | 0, s => s
  | k + 1, s =>
    if isNegative (shl b s) = false ∧ ucmp a (shl b (s + 1)) ≠ .less then searchShift a b k (s + 1) else s

/-- The `for` of R200 for the indexes `k − 1, …, 1, 0`, on the quotient and the remainder so far. -/
def divideLoop (b : Word) : Nat → Word → Word → Word × Word
  | 0, q, r => (q, r)
  | i + 1, q, r =>
    if ucmp r (shl b i) ≠ .less then divideLoop b i (q ||| BitVec.twoPow 128 i) (subWord r (shl b i))
    else divideLoop b i q r

/-- The remainder the zero-divisor exit returns (R200; 90_conflicts.md C1; U3). -/
def zeroDivisorRemainder (choice : ModByZero) (a : Word) : Word :=
  match choice with
  | .zero => fromParts 0 0
  | .dividend => a

/-- `udivmod(a, b)`: quotient and remainder (R200). The zero-divisor test precedes everything (R274). -/
def udivmod (choice : ModByZero) (a b : Word) : Word × Word :=
  if b = fromParts 0 0 then (fromParts 0 0, zeroDivisorRemainder choice a)
  else if ucmp a b = .less then (fromParts 0 0, a)
  else divideLoop b (searchShift a b 127 0 + 1) (fromParts 0 0) a

/-- `sdivmod(a, b)`: the unsigned kernel on absolute values, then the signs (R204). -/
def sdivmod (choice : ModByZero) (a b : Word) : Word × Word :=
  let u := udivmod choice (abs a) (abs b)
  (if isNegative a ≠ isNegative b then neg u.1 else u.1, if isNegative a then neg u.2 else u.2)

/-- DIV (R202). -/
def execDiv (s : State) : Result := transact (fun a b => .word (udivmod Config.modByZero a b).1) s

/-- MOD (R203). -/
def execMod (s : State) : Result := transact (fun a b => .word (udivmod Config.modByZero a b).2) s

/-- SDIV (R205). -/
def execSdiv (s : State) : Result := transact (fun a b => .word (sdivmod Config.modByZero a b).1) s

/-- SMOD (R206). -/
def execSmod (s : State) : Result := transact (fun a b => .word (sdivmod Config.modByZero a b).2) s

end Sys2Proof.Machine
end

