-- ==== Sys2Proof/Machine/Formatter.lean ====
section
/-! DEFINITION. Unit `u128_to_decimal_formatter` (R250 to R255). -/

namespace Sys2Proof.Machine

/-- The word ten, the formatter's constant divisor. -/
def tenWord : Word := fromParts 0 10

/-- The loop of R250. Each digit goes in front of the later generated ones' successors, which emits the
digits in reverse of generation order. The first argument bounds the loop; 39 digits suffice. -/
def digitsLoop : Nat → Word → List Nat → List Nat
  | 0, _, digitsSoFar => digitsSoFar
  | k + 1, m, digitsSoFar =>
    let d := udivmod Config.modByZero m tenWord
    if d.1 = fromParts 0 0 then d.2.toNat :: digitsSoFar
    else digitsLoop k d.1 (d.2.toNat :: digitsSoFar)

/-- `digits(m)`, most significant first (R250). -/
def digits (m : Word) : List Nat := digitsLoop 39 m []

/-- The byte of a digit (R254). -/
def digitByte (d : Nat) : Byte := BitVec.ofNat 8 (Config.digitZero + d)

/-- The characters of FMT (R252). -/
def fmtChars (v : Word) : List Byte := (digits v).map digitByte

/-- The characters of SFMT (R253). -/
def sfmtChars (v : Word) : List Byte :=
  if isNegative v then Config.minusSign :: (digits (neg v)).map digitByte else (digits v).map digitByte

/-- FMT (R252); `B` is ignored. -/
def execFmt (s : State) : Result := transact (fun a _ => .text (fmtChars a)) s

/-- SFMT (R253); `B` is ignored. -/
def execSfmt (s : State) : Result := transact (fun a _ => .text (sfmtChars a)) s

end Sys2Proof.Machine
end

