-- ==== Sys2Proof/Machine/Multiply.lean ====
section
/-! DEFINITION. Unit `u128_multiplier` (R190 to R193). -/

namespace Sys2Proof.Machine

/-- The upper half of a limb (R190). -/
def upperHalf (x : Limb) : HalfLimb := x.extractLsb' 32 32

/-- The lower half of a limb (R190). -/
def lowerHalf (x : Limb) : HalfLimb := x.extractLsb' 0 32

/-- One cross product of half limbs; it fits in 64 bits (R190). -/
def mulHalves (x y : HalfLimb) : Limb := x.setWidth 64 * y.setWidth 64

/-- `mul64x64(x, y)`: the full product of two limbs as `(hi, lo)` (R190). -/
def mul64x64 (x y : Limb) : Limb × Limb :=
  let p00 := mulHalves (lowerHalf x) (lowerHalf y)
  let p01 := mulHalves (lowerHalf x) (upperHalf y)
  let p10 := mulHalves (upperHalf x) (lowerHalf y)
  let p11 := mulHalves (upperHalf x) (upperHalf y)
  let mid := (p00 >>> 32) + (lowerHalf p01).setWidth 64 + (lowerHalf p10).setWidth 64
  (p11 + (p01 >>> 32) + (p10 >>> 32) + (mid >>> 32), lowerHalf mid ++ lowerHalf p00)

/-- Wrapping multiplication (R191): the cross products of unlike limbs fold into the high limb, and
`high·high` is never computed. -/
def mulWord (a b : Word) : Word :=
  let p := mul64x64 (low a) (low b)
  fromParts (p.1 + high a * low b + low a * high b) p.2

/-- MUL (R191). -/
def execMul (s : State) : Result := transact (fun a b => .word (mulWord a b)) s

end Sys2Proof.Machine
end

