-- ==== Sys2Proof/Machine/Dispatch.lean ====
section
/-! DEFINITION. `exec`: one arm per operation of R73, each one direct call of the operation's meaning. -/

namespace Sys2Proof.Machine

def exec (i : Instr) (s : State) : Host.Outcome State Fault Refusal :=
  match i with
  | .add => Sys2Proof.Machine.execAdd s
  | .sub => Sys2Proof.Machine.execSub s
  | .mul => Sys2Proof.Machine.execMul s
  | .div => Sys2Proof.Machine.execDiv s
  | .sdiv => Sys2Proof.Machine.execSdiv s
  | .mod => Sys2Proof.Machine.execMod s
  | .smod => Sys2Proof.Machine.execSmod s
  | .cmp => Sys2Proof.Machine.execCmp s
  | .scmp => Sys2Proof.Machine.execScmp s
  | .eq => Sys2Proof.Machine.execEq s
  | .lt => Sys2Proof.Machine.execLt s
  | .slt => Sys2Proof.Machine.execSlt s
  | .le => Sys2Proof.Machine.execLe s
  | .sle => Sys2Proof.Machine.execSle s
  | .gt => Sys2Proof.Machine.execGt s
  | .sgt => Sys2Proof.Machine.execSgt s
  | .ge => Sys2Proof.Machine.execGe s
  | .sge => Sys2Proof.Machine.execSge s
  | .shl n => Sys2Proof.Machine.execShl n s
  | .shr n => Sys2Proof.Machine.execShr n s
  | .sar n => Sys2Proof.Machine.execSar n s
  | .and => Sys2Proof.Machine.execAnd s
  | .or => Sys2Proof.Machine.execOr s
  | .xor => Sys2Proof.Machine.execXor s
  | .not => Sys2Proof.Machine.execNot s
  | .fmt => Sys2Proof.Machine.execFmt s
  | .sfmt => Sys2Proof.Machine.execSfmt s

end Sys2Proof.Machine
end

