-- ==== Sys2Proof/Machine/Step.lean ====
section
/-! DEFINITION. One step of the machine: one transaction. There is no program counter and no fetch from
memory (R34, R59): the command arrives in the request it governs. -/

namespace Sys2Proof.Machine

/-- Perform the transaction on the request port: decode its command word, then execute. A reserved word
is refused before and without regard to the operands (R76, R79, R272, R274). -/
def step (s : State) : Host.Outcome State Fault Refusal :=
  match s.port with
  | none => .refused .noRequest
  | some r =>
    match decode r.cmd with
    | .instr i => exec i s
    | .reserved why => .refused (.reservedCommand r.cmd why)

/-- `s` with the command word `w` in the request on the port, which is where the next instruction comes
from. The operand words on the port stay; where no request stands there, the two operands of the new one
are zero, a request being whatever the host makes it (log 7). -/
def State.withFetchWord (s : State) (nbits w : Nat) : State :=
  let cmd : Cmd := BitVec.ofNat 16 (w % 2 ^ nbits)
  match s.requests with
  | [] => { s with requests := [⟨cmd, 0, 0⟩] }
  | r :: rest => { s with requests := { r with cmd := cmd } :: rest }

end Sys2Proof.Machine
end

