-- ==== Sys2Proof/Machine/Script.lean ====
section
/-! DEFINITION. The host's side (R9, R90): storage by name, assembler lines (R81), pseudo-instructions
(R82), compound forms (R83) and the control flow of host scripts. Storage and control flow are the
host's, never the core's; the core is reached only through `present` and `step`. -/

namespace Sys2Proof.Machine

/-- What a name of a host script holds: a response's value (R81), or a native integer as a pattern of
`k` bits (R102 to R104). -/
inductive Value where
  | word (v : Word)
  | order (c : Order)
  | truth (t : Bool)
  | text (chars : List Byte)
  | native (k : Nat) (pattern : Nat)
deriving DecidableEq, Repr

/-- A response's value as the host keeps it (R81). -/
def Response.toValue : Response → Value
  | .word r => .word r
  | .order c => .order c
  | .truth t => .truth t
  | .text chars => .text chars

/-- The host's storage: names and their values, no name twice. A name that is not listed was never
written. -/
abbrev Store := List (String × Value)

/-- The value of a name, none where nothing has written it. -/
def Store.read : Store → String → Option Value
  | [], _ => none
  | (y, v) :: rest, x => if y = x then some v else Store.read rest x

/-- Replace the value of a name, whole (R27, R83). -/
def Store.write : Store → String → Value → Store
  | [], x, v => [(x, v)]
  | (y, w) :: rest, x, v => if y = x then (x, v) :: rest else (y, w) :: Store.write rest x v

/-- A host at work: its storage and the core it uses. -/
structure HostState where
  store : Store
  core : State
deriving DecidableEq, Repr

/-- Go on with what an outcome gives; a fault or a refusal stands. -/
def andThen {α β : Type} (o : Host.Outcome α Fault Refusal) (f : α → Host.Outcome β Fault Refusal) :
    Host.Outcome β Fault Refusal :=
  match o with
  | .next x => f x
  | .fault e => .fault e
  | .refused e => .refused e

/-- A literal word (R81). -/
inductive Literal where
  /-- `#` and a decimal number, optionally signed. -/
  | decimal (z : Int)
  /-- `#0x` and hexadecimal digits. -/
  | hex (n : Nat)
  /-- The high and the low limb in braces. -/
  | limbs (h l : Nat)
deriving DecidableEq, Repr

/-- The word of a literal: a non-negative one is zero-extended, a negative one sign-extended (R81). One
that does not fit has no word (log 8). -/
def Literal.toWord : Literal → Option Word
  | .decimal z =>
    if 0 ≤ z ∧ z < 2 ^ 128 ∨ z < 0 ∧ -(2 ^ 127) ≤ z then some (BitVec.ofInt 128 z) else none
  | .hex n => if n < 2 ^ 128 then some (BitVec.ofNat 128 n) else none
  | .limbs h l =>
    if h < 2 ^ 64 ∧ l < 2 ^ 64 then some (fromParts (BitVec.ofNat 64 h) (BitVec.ofNat 64 l)) else none

/-- An operand of a line: a name or a literal (R81). -/
inductive Operand where
  | name (x : String)
  | literal (l : Literal)
deriving DecidableEq, Repr

/-- Read a name: an unwritten one faults at the host (R291, U13). -/
def readValue (st : Store) (x : String) : Host.Outcome Value Fault Refusal :=
  match st.read x with
  | none => .fault (.unwrittenValue x)
  | some v => .next v

/-- The word an operand stands for. A value that is not a word is no operand (R75, U5). -/
def readOperand (st : Store) : Operand → Host.Outcome Word Fault Refusal
  | .literal l =>
    match l.toWord with
    | some w => .next w
    | none => .refused .badLiteral
  | .name x =>
    andThen (readValue st x) fun v =>
      match v with
      | .word w => .next w
      | _ => .refused (.wrongKind x)

/-- The truth value a name holds, for `if` and `while` (R90). -/
def readTruth (st : Store) (x : String) : Host.Outcome Bool Fault Refusal :=
  andThen (readValue st x) fun v =>
    match v with
    | .truth t => .next t
    | _ => .refused (.wrongKind x)

/-- The native integer a name holds: its width, at most 64 bits (R102), and its pattern. -/
def readNative (st : Store) (x : String) : Host.Outcome (Nat × Nat) Fault Refusal :=
  andThen (readValue st x) fun v =>
    match v with
    | .native k p => if k ≤ 64 then .next (k, p) else .refused (.wrongKind x)
    | _ => .refused (.wrongKind x)

/-- The characters a name holds. -/
def readText (st : Store) (x : String) : Host.Outcome (List Byte) Fault Refusal :=
  andThen (readValue st x) fun v =>
    match v with
    | .text chars => .next chars
    | _ => .refused (.wrongKind x)

/-- One transaction seen from the host (R292): make the request, let the core perform it, take the
response. -/
def send (i : Instr) (a b : Word) (core : State) : Host.Outcome (Response × State) Fault Refusal :=
  if i.wellFormed then
    andThen (present core ⟨encode i, a, b⟩) fun s =>
      andThen (step s) fun s' =>
        match s'.response with
        | some rsp => .next (rsp, s')
        | none => .refused .noRequest
  else .refused .malformedLine

/-- `send` for a command that ignores `B`, which the host then does not drive (R71, D25; log 6). -/
def sendA (i : Instr) (a : Word) (core : State) : Host.Outcome (Response × State) Fault Refusal :=
  send i a (Config.undrivenB core.history.length) core

/-- Bind the response's value to `dst` (R81, R83). -/
def bindResponse (st : Store) (dst : String) (p : Response × State) : HostState :=
  ⟨st.write dst p.1.toValue, p.2⟩

/-- The three shift mnemonics (R81 format S). -/
inductive ShiftOp where
  | shl
  | shr
  | sar
deriving DecidableEq, Repr

/-- The operation of a shift mnemonic with its amount. -/
def ShiftOp.instr : ShiftOp → Nat → Instr
  | .shl, n => .shl n
  | .shr, n => .shr n
  | .sar, n => .sar n

/-- An assembler line (R81). The amount of a shift is what the host holds, which may be negative or too
large; no command is formed of it then (R74, U1). -/
inductive Line where
  | two (i : Instr) (dst : String) (a b : Operand)
  | one (i : Instr) (dst : String) (a : Operand)
  | shift (op : ShiftOp) (dst : String) (a : Operand) (amount : Int)
deriving DecidableEq, Repr

/-- The amount of a shift line: 0 to 255 and nothing else, never truncated (R74, R81, U1). -/
def shiftAmount (amount : Int) : Host.Outcome Nat Fault Refusal :=
  if amount < 0 then .refused (.negativeShift amount)
  else if amount < 2 ^ Config.shamtW then .next amount.toNat
  else .refused (.shiftTooLarge amount)

/-- The operation a line spells, where mnemonic and operands fit the format (R71, R81). -/
def lineInstr : Line → Host.Outcome Instr Fault Refusal
  | .two i _ _ _ => if formatOf i = .r then .next i else .refused .malformedLine
  | .one i _ _ => if formatOf i = .u then .next i else .refused .malformedLine
  | .shift op _ _ amount => andThen (shiftAmount amount) fun n => .next (op.instr n)

/-- The assembled form of a line: its command word (R81). -/
def assemble (l : Line) : Host.Outcome Cmd Fault Refusal :=
  andThen (lineInstr l) fun i => .next (encode i)

/-- Perform a line (R81, R90). A line with more than one cause to stop stops for the first of: the format or
the shift amount, the first operand, the second operand (DESIGN CHOICE, log 17). -/
def runLine (l : Line) (h : HostState) : Host.Outcome HostState Fault Refusal :=
  andThen (lineInstr l) fun i =>
    match l with
    | .two _ dst a b =>
      andThen (readOperand h.store a) fun x =>
        andThen (readOperand h.store b) fun y =>
          andThen (send i x y h.core) fun p => .next (bindResponse h.store dst p)
    | .one _ dst a =>
      andThen (readOperand h.store a) fun x =>
        andThen (sendA i x h.core) fun p => .next (bindResponse h.store dst p)
    | .shift _ dst a _ =>
      andThen (readOperand h.store a) fun x =>
        andThen (sendA i x h.core) fun p => .next (bindResponse h.store dst p)

/-- A slice `v[hi:lo]` of a word, of at most 64 bits (DESIGN CHOICE, log 18), as a native pattern (R10, R101,
R104). -/
def slice (v : Word) (hi lo : Nat) : Host.Outcome Value Fault Refusal :=
  if lo ≤ hi ∧ hi < 128 ∧ hi < lo + 64 then
    .next (.native (hi + 1 - lo) (v.toNat / 2 ^ lo % 2 ^ (hi + 1 - lo)))
  else .refused .malformedLine

/-- Host-side wiring, which costs no transaction (R75, R90, R105). The list is the model's choice where R90
leaves it open (DESIGN CHOICE, log 18). -/
inductive Wire where
  /-- The value itself: unary plus, `POS` (R82). -/
  | copy (a : Operand)
  /-- The concatenation of two limbs: `FROM_PARTS` (R82, R100). -/
  | pair (h l : String)
  /-- `a[hi:lo]`: `HIGH`, `LOW` and narrowing (R82, R101, R104). -/
  | slice (a : Operand) (hi lo : Nat)
  /-- Widening of an unsigned native integer (R102). -/
  | widenUnsigned (x : String)
  /-- Widening of a signed native integer (R103). -/
  | widenSigned (x : String)
  /-- `char(0x30 + a[3:0]) followed by text`: the host's own string action (95_test_vectors.md script 3). -/
  | digitBefore (a : Operand) (text : String)
deriving DecidableEq, Repr

/-- The value of a wiring expression. R90 says only "such as" of `d := expr`; which expressions there are, and
that the others are refused, is the model's choice (DESIGN CHOICE, log 18). -/
def wireValue (st : Store) : Wire → Host.Outcome Value Fault Refusal
  | .copy a => andThen (readOperand st a) fun v => .next (.word v)
  | .pair h l =>
    andThen (readNative st h) fun x =>
      andThen (readNative st l) fun y =>
        if x.1 = 64 then
          if y.1 = 64 then .next (.word (fromParts (BitVec.ofNat 64 x.2) (BitVec.ofNat 64 y.2)))
          else .refused (.wrongKind l)
        else .refused (.wrongKind h)
  | .slice a hi lo => andThen (readOperand st a) fun v => Sys2Proof.Machine.slice v hi lo
  | .widenUnsigned x =>
    andThen (readNative st x) fun n =>
      .next (.word (Sys2Proof.Machine.widenUnsigned (BitVec.ofNat n.1 n.2)))
  | .widenSigned x =>
    andThen (readNative st x) fun n =>
      .next (.word (Sys2Proof.Machine.widenSigned (BitVec.ofNat n.1 n.2)))
  | .digitBefore a text =>
    andThen (readOperand st a) fun v =>
      andThen (readText st text) fun chars =>
        .next (.text (digitByte (v.toNat % 2 ^ 4) :: chars))

/-- The pseudo-instructions that stand for transactions (R82); the others are wiring. The values `t` and `p`
of their expansions get no name, and `ABS` uses the first form of `NEG` (DESIGN CHOICE, log 10). -/
inductive Pseudo where
  /-- `NEG d, a` by NOT and ADD (R230). -/
  | neg (dst : String) (a : Operand)
  /-- `NEG d, a`, second form, by SUB from zero (R231). -/
  | negBySub (dst : String) (a : Operand)
  /-- `ABS d, a` (R232). -/
  | abs (dst : String) (a : Operand)
  /-- `ISZERO p, a`: unary `!` (R80, D24). -/
  | isZero (dst : String) (a : Operand)
  /-- `NE p, a, b` (R82). -/
  | ne (dst : String) (a b : Operand)
deriving DecidableEq, Repr

/-- A transaction whose response has to be a word, taken as the next operand (R75, R294). -/
def sendForWord (o : Host.Outcome (Response × State) Fault Refusal) (dst : String)
    (f : Word → State → Host.Outcome HostState Fault Refusal) : Host.Outcome HostState Fault Refusal :=
  andThen o fun p =>
    match p.1 with
    | .word t => f t p.2
    | _ => .refused (.wrongKind dst)

/-- A transaction whose response has to be a truth value. -/
def sendForTruth (o : Host.Outcome (Response × State) Fault Refusal) (dst : String)
    (f : Bool → State → Host.Outcome HostState Fault Refusal) : Host.Outcome HostState Fault Refusal :=
  andThen o fun p =>
    match p.1 with
    | .truth t => f t p.2
    | _ => .refused (.wrongKind dst)

/-- The two transactions of `NEG` on a word (R82, R230). The value between them is a fresh host value
that no name holds. -/
def sendNeg (v : Word) (dst : String) (h : HostState) : Host.Outcome HostState Fault Refusal :=
  sendForWord (sendA .not v h.core) dst fun t core =>
    andThen (send .add t (fromParts 0 1) core) fun p => .next (bindResponse h.store dst p)

/-- Perform a pseudo-instruction (R82). -/
def runPseudo (p : Pseudo) (h : HostState) : Host.Outcome HostState Fault Refusal :=
  match p with
  | .neg dst a => andThen (readOperand h.store a) fun v => sendNeg v dst h
  | .negBySub dst a =>
    andThen (readOperand h.store a) fun v =>
      andThen (send .sub (fromParts 0 0) v h.core) fun q => .next (bindResponse h.store dst q)
  | .abs dst a =>
    andThen (readOperand h.store a) fun v =>
      sendForTruth (send .slt v (fromParts 0 0) h.core) dst fun t core =>
        if t then sendNeg v dst ⟨h.store, core⟩ else .next ⟨h.store.write dst (.word v), core⟩
  | .isZero dst a =>
    andThen (readOperand h.store a) fun v =>
      andThen (send .eq v (fromParts 0 0) h.core) fun q => .next (bindResponse h.store dst q)
  | .ne dst a b =>
    andThen (readOperand h.store a) fun v =>
      andThen (readOperand h.store b) fun w =>
        sendForTruth (send .eq v w h.core) dst fun t core =>
          .next ⟨h.store.write dst (.truth (!t)), core⟩

/-- A host script (R90). -/
inductive Script where
  | skip
  | line (l : Line)
  | pseudo (p : Pseudo)
  | wire (dst : String) (e : Wire)
  | seq (first second : Script)
  | ifThenElse (p : String) (yes no : Script)
  | whileDo (p : String) (body : Script)
  | repeatUntil (body : Script) (p : String)
deriving DecidableEq, Repr

/-- Run a script (R90). The first argument bounds the steps of the host, so that the function is total;
a script that does not end within them is left as unfinished. -/
def runScript : Nat → Script → HostState → Host.Outcome HostState Fault Refusal
  | 0, _, _ => .refused .scriptUnfinished
  | k + 1, c, h =>
    match c with
    | .skip => .next h
    | .line l => runLine l h
    | .pseudo p => runPseudo p h
    | .wire dst e => andThen (wireValue h.store e) fun v => .next ⟨h.store.write dst v, h.core⟩
    | .seq first second => andThen (runScript k first h) fun h' => runScript k second h'
    | .ifThenElse p yes no =>
      andThen (readTruth h.store p) fun t => if t then runScript k yes h else runScript k no h
    | .whileDo p body =>
      andThen (readTruth h.store p) fun t =>
        if t then andThen (runScript k body h) fun h' => runScript k (.whileDo p body) h' else .next h
    | .repeatUntil body p =>
      andThen (runScript k body h) fun h' =>
        andThen (readTruth h'.store p) fun t =>
          if t then .next h' else runScript k (.repeatUntil body p) h'

/-- A list of script lines, one after another (R90). -/
def Script.ofList : List Script → Script
  | [] => .skip
  | c :: rest => .seq c (Script.ofList rest)

/-- The encoding of a run: the command words the host has sent between two of its states, in order
(R90). -/
def wordsSent (before after : HostState) : List Cmd :=
  (after.core.history.drop before.core.history.length).map fun t => t.request.cmd

end Sys2Proof.Machine
end

