-- ==== Sys2Proof/Machine/Assembler.lean ====
section
/-! DEFINITION. The text of an assembler line (R81): its tokens, and the script line they spell. The
document has no assembly language; this reads the notation of R81 and R82, one line at a time. -/

namespace Sys2Proof.Machine

/-- A token: a run of letters, digits and underscores, or one symbol. -/
inductive Token where
  | run (chars : List Char)
  | symbol (c : Char)
deriving DecidableEq, Repr

/-- The opening brace. -/
def openBrace : Char := Char.ofNat 0x7B

/-- The closing brace. -/
def closeBrace : Char := Char.ofNat 0x7D

/-- Letters, digits and the underscore make up names, mnemonics and numbers. -/
def isRunChar (c : Char) : Bool := c.isAlphanum || c == '_'

/-- The tokenizer between two characters: tokens so far and the run in progress, both latest first, and
whether a comment has begun. -/
structure Scan where
  tokens : List Token
  current : List Char
  comment : Bool
deriving DecidableEq, Repr

/-- End the run in progress. -/
def Scan.flush (z : Scan) : List Token :=
  match z.current with
  | [] => z.tokens
  | c :: cs => .run (c :: cs).reverse :: z.tokens

/-- Take one character in; `;` starts a comment (R81). -/
def Scan.take (z : Scan) (c : Char) : Scan :=
  if z.comment then z
  else if c = ';' then ⟨z.flush, [], true⟩
  else if isRunChar c then ⟨z.tokens, c :: z.current, false⟩
  else if c.isWhitespace then ⟨z.flush, [], false⟩
  else ⟨.symbol c :: z.flush, [], false⟩

/-- The tokens of a line. -/
def tokens (text : List Char) : List Token := (text.foldl Scan.take ⟨[], [], false⟩).flush.reverse

/-- The value of a digit in the given base. -/
def digitIn (base : Nat) (c : Char) : Option Nat :=
  let n := c.toNat
  let d := if 0x30 ≤ n ∧ n ≤ 0x39 then n - 0x30
    else if 0x41 ≤ n ∧ n ≤ 0x46 then n - 0x41 + 10
    else if 0x61 ≤ n ∧ n ≤ 0x66 then n - 0x61 + 10
    else base
  if d < base then some d else none

/-- A numeral: at least one digit, most significant first. -/
def numeral (base : Nat) (chars : List Char) : Option Nat :=
  match chars with
  | [] => none
  | c :: cs => (c :: cs).foldl (fun n c => n.bind fun n => (digitIn base c).map fun d => n * base + d) (some 0)

/-- A number: decimal, or `0x` and hexadecimal digits; the flag says which. -/
def number (chars : List Char) : Option (Bool × Nat) :=
  match chars with
  | '0' :: 'x' :: rest => (numeral 16 rest).map fun n => (true, n)
  | other => (numeral 10 other).map fun n => (false, n)

/-- A name begins with a letter or an underscore. -/
def nameOf (chars : List Char) : Option String :=
  match chars with
  | [] => none
  | c :: cs => if c.isDigit then none else some (String.ofList (c :: cs))

/-- An operand and the tokens after it (R81): a name, `#` and a number, `#-` and a decimal number, or two
limbs in braces, with or without `#` (log 8). -/
def operandAt : List Token → Option (Operand × List Token)
  | .symbol '#' :: .symbol '-' :: .run cs :: rest =>
    (numeral 10 cs).map fun n => (.literal (.decimal (-(n : Int))), rest)
  | .symbol '#' :: .symbol '+' :: .run cs :: rest =>
    (numeral 10 cs).map fun n => (.literal (.decimal n), rest)
  | .symbol '#' :: .run cs :: rest =>
    (number cs).map fun p => (.literal (if p.1 then .hex p.2 else .decimal p.2), rest)
  | .symbol '#' :: .symbol b :: .run h :: .symbol ',' :: .run l :: .symbol e :: rest =>
    if b = openBrace ∧ e = closeBrace then
      (number h).bind fun x => (number l).map fun y => (.literal (.limbs x.2 y.2), rest)
    else none
  | .symbol b :: .run h :: .symbol ',' :: .run l :: .symbol e :: rest =>
    if b = openBrace ∧ e = closeBrace then
      (number h).bind fun x => (number l).map fun y => (.literal (.limbs x.2 y.2), rest)
    else none
  | .run cs :: rest => (nameOf cs).map fun x => (.name x, rest)
  | _ => none

/-- The amount of a shift: `#` and a decimal number, the line's last (R81). A sign is read, so that a
negative amount is refused by name when the line is run (U1). -/
def amountAt : List Token → Option Int
  | [.symbol '#', .run cs] => (numeral 10 cs).map fun n => (n : Int)
  | [.symbol '#', .symbol '-', .run cs] => (numeral 10 cs).map fun n => -(n : Int)
  | _ => none

/-- What the mnemonic of a line stands for: an operation of R73 in one of the three formats, or a
pseudo-instruction of R82. -/
inductive Mnemonic where
  | two (i : Instr)
  | one (i : Instr)
  | shift (op : ShiftOp)
  | neg
  | abs
  | pos
  | isZero
  | ne
  | fromParts
  | high
  | low
deriving DecidableEq, Repr

/-- The mnemonics of R73, in upper case (R81). -/
def commandMnemonics : List (String × Mnemonic) :=
  [("ADD", .two .add), ("SUB", .two .sub), ("MUL", .two .mul), ("DIV", .two .div), ("SDIV", .two .sdiv),
   ("MOD", .two .mod), ("SMOD", .two .smod), ("CMP", .two .cmp), ("SCMP", .two .scmp), ("EQ", .two .eq),
   ("LT", .two .lt), ("SLT", .two .slt), ("LE", .two .le), ("SLE", .two .sle), ("GT", .two .gt),
   ("SGT", .two .sgt), ("GE", .two .ge), ("SGE", .two .sge), ("AND", .two .and), ("OR", .two .or),
   ("XOR", .two .xor), ("NOT", .one .not), ("FMT", .one .fmt), ("SFMT", .one .sfmt),
   ("SHL", .shift .shl), ("SHR", .shift .shr), ("SAR", .shift .sar)]

/-- The pseudo-instructions of R82. -/
def pseudoMnemonics : List (String × Mnemonic) :=
  [("NEG", .neg), ("ABS", .abs), ("POS", .pos), ("ISZERO", .isZero), ("NE", .ne),
   ("FROM_PARTS", .fromParts), ("HIGH", .high), ("LOW", .low)]

/-- Look a mnemonic up. -/
def mnemonicOf (chars : List Char) : Option Mnemonic :=
  ((commandMnemonics ++ pseudoMnemonics).find? fun p => p.1.toList == chars).map fun p => p.2

/-- The script line of a mnemonic with one source operand (R81 format U, R82). -/
def lineOfOne (m : Mnemonic) (dst : String) (a : Operand) : Option Script :=
  match m with
  | .one i => some (.line (.one i dst a))
  | .neg => some (.pseudo (.neg dst a))
  | .abs => some (.pseudo (.abs dst a))
  | .pos => some (.wire dst (.copy a))
  | .isZero => some (.pseudo (.isZero dst a))
  | .high => some (.wire dst (.slice a 127 64))
  | .low => some (.wire dst (.slice a 63 0))
  | _ => none

/-- The script line of a mnemonic with two source operands (R81 format R, R82). The limbs of `FROM_PARTS` are
names; no limb literal is read there (DESIGN CHOICE, log 8). -/
def lineOfTwo (m : Mnemonic) (dst : String) (a b : Operand) : Option Script :=
  match m, a, b with
  | .two i, a, b => some (.line (.two i dst a b))
  | .ne, a, b => some (.pseudo (.ne dst a b))
  | .fromParts, .name h, .name l => some (.wire dst (.pair h l))
  | _, _, _ => none

/-- What follows `dst,`: one operand, two operands, or for a shift an operand and an amount (R81). -/
def lineAfter (m : Mnemonic) (dst : String) (ts : List Token) : Option Script :=
  (operandAt ts).bind fun p =>
    match m, p.2 with
    | .shift op, .symbol ',' :: rest => (amountAt rest).map fun n => .line (.shift op dst p.1 n)
    | m, [] => lineOfOne m dst p.1
    | m, .symbol ',' :: rest =>
      (operandAt rest).bind fun q => if q.2 = [] then lineOfTwo m dst p.1 q.1 else none
    | _, _ => none

/-- The script line that a line of text spells, none where it spells none; an empty line or a comment
alone does nothing (R81). -/
def parseLine (text : String) : Option Script :=
  match tokens text.toList with
  | [] => some .skip
  | .run m :: .run dst :: .symbol ',' :: rest =>
    (mnemonicOf m).bind fun mn => (nameOf dst).bind fun d => lineAfter mn d rest
  | _ => none

/-- The script that a list of lines spells, none where one of them spells none (R81, R90). The host's
control flow has no text here; it is written in `Script` (log 8). -/
def parseLines (lines : List String) : Option Script := (lines.mapM parseLine).map Script.ofList

end Sys2Proof.Machine
end

