-- ==== Sys2Proof/Machine/Contract.lean ====
section
/-! DEFINITION. The mathematical result of every operation, computed on unbounded integers and narrowed at
the end: the contract both backends meet (R7, D28, U2), and what a native double-width backend returns.
`exec` uses the limb formulas; that the two agree is a statement, not a definition. -/

namespace Sys2Proof.Machine

/-- The three-way order of two integers (R120, R121, R133). -/
def intOrder (x y : Int) : Order := if x < y then .less else if x = y then .equal else .greater

/-- The canonical decimal numeral of a natural number, as characters (R250, R254). -/
def decimalChars (m : Nat) : List Byte := (Nat.toDigits 10 m).map (fun c => BitVec.ofNat 8 c.toNat)

/-- The response the contract gives, from `U` and `S` of the operands (R10, R25). -/
def contract (i : Instr) (a b : Word) : Response :=
  match i with
  | .add => .word (BitVec.ofNat 128 (a.toNat + b.toNat))
  | .sub => .word (BitVec.ofInt 128 ((a.toNat : Int) - b.toNat))
  | .mul => .word (BitVec.ofNat 128 (a.toNat * b.toNat))
  | .div => .word (if b.toNat = 0 then 0 else BitVec.ofNat 128 (a.toNat / b.toNat))
  | .sdiv => .word (if b.toNat = 0 then 0 else BitVec.ofInt 128 (a.toInt.tdiv b.toInt))
  | .mod => .word (if b.toNat = 0 then 0 else BitVec.ofNat 128 (a.toNat % b.toNat))
  | .smod => .word (if b.toNat = 0 then 0 else BitVec.ofInt 128 (a.toInt.tmod b.toInt))
  | .cmp => .order (intOrder a.toNat b.toNat)
  | .scmp => .order (intOrder a.toInt b.toInt)
  | .eq => .truth (decide (a = b))
  | .lt => .truth (decide (a.toNat < b.toNat))
  | .slt => .truth (decide (a.toInt < b.toInt))
  | .le => .truth (decide (a.toNat ≤ b.toNat))
  | .sle => .truth (decide (a.toInt ≤ b.toInt))
  | .gt => .truth (decide (b.toNat < a.toNat))
  | .sgt => .truth (decide (b.toInt < a.toInt))
  | .ge => .truth (decide (b.toNat ≤ a.toNat))
  | .sge => .truth (decide (b.toInt ≤ a.toInt))
  | .shl n => .word (BitVec.ofNat 128 (a.toNat * 2 ^ n))
  | .shr n => .word (BitVec.ofNat 128 (a.toNat / 2 ^ n))
  | .sar n => .word (BitVec.ofInt 128 (a.toInt / 2 ^ n))
  | .and => .word (a &&& b)
  | .or => .word (a ||| b)
  | .xor => .word (a ^^^ b)
  | .not => .word (~~~a)
  | .fmt => .text (decimalChars a.toNat)
  | .sfmt =>
    .text (if a.toInt < 0 then Config.minusSign :: decimalChars a.toInt.natAbs
      else decimalChars a.toInt.natAbs)

end Sys2Proof.Machine
end

