-- ==== Sys2Proof/Safety.lean ====
section
/-! DEFINITION. What counts as a safe run, and the invariant of the machine, in the terms the statements
use. -/

namespace Sys2Proof.Machine

/-- The request's command word spells an operation (R76): the one precondition a host has to meet
(R291). -/
def Request.legal (r : Request) : Bool :=
  match decode r.cmd with
  | .instr _ => true
  | .reserved _ => false

/-- The response the contract gives to a request, none for a reserved command word. -/
def Request.answer (r : Request) : Option Response :=
  match decode r.cmd with
  | .instr i => some (contract i r.a r.b)
  | .reserved _ => none

/-- The transaction's response is the one its own request determines (R8, R28). -/
def Transaction.sound (t : Transaction) : Bool := decide (t.request.answer = some t.response)

/-- Every request the host has settled on is legal: a run of the state neither faults nor is refused
before its requests are used up. -/
def State.safe (s : State) : Bool := s.requests.all Request.legal

/-- The command word `w`, and no other, spells the operation `i` (R73). -/
def SpelledBy (i : Instr) (w : Cmd) : Prop := ∀ v : Cmd, decode v = .instr i ↔ v = w

/-- The command words `base | n`, and no others, spell the shift operations `op n` (R73, R74): the amount
is the low byte, unsigned and unscaled. -/
def SpelledByShift (op : Nat → Instr) (base : Cmd) : Prop :=
  ∀ (v : Cmd) (n : Nat), decode v = .instr (op n) ↔ v &&& 0xFF00 = base ∧ n = (v &&& 0x00FF).toNat

/-- The operation answers every request with the response `f` gives to its two operand words, and does
nothing else: the state after it is the one in which this transaction has been performed. -/
def AnswersWith (i : Instr) (f : Word → Word → Response) : Prop :=
  ∀ (s : State) (r : Request) (rest : List Request), s.requests = r :: rest →
    exec i s = .next (s.answered r (f r.a r.b) rest)

/-- The response of an operation to two operand words, read off the machine: one transaction from
reset. -/
def responseOf (i : Instr) (a b : Word) : Option Response :=
  match exec i (State.reset.plan [⟨encode i, a, b⟩]) with
  | .next s => s.response
  | .fault _ => none
  | .refused _ => none

/-- The invariant: every recorded response is the one its own request determines, whatever was asked
before it (R28), and the response port shows the last one. The record, and that the last response still shows
until the next one, are the model's choice (DESIGN CHOICE, log 1). -/
structure State.Inv (s : State) : Prop where
  historySound : ∀ t ∈ s.history, t.sound = true
  portShowsLast : s.response = s.history.getLast?.map (fun t => t.response)

end Sys2Proof.Machine
end

