-- ==== Sys2Proof/Certificates/Slice0/Obligations.lean ====
section
/-! DEFINITION. The statements for the provers. Every statement about an operation says the whole next
state, so it is its own frame: `AnswersWith` and `State.answered` leave nothing open. -/

open Sys2Proof Sys2Proof.Machine

/-! ### Encoding and decoding -/

/-- R73: the operation map. Every row's words, and no others, decode to its operation; no word matches two
rows; the format and response kind columns. -/
def Obligations.EachOperationMapRowSpellsItsOperation : Prop :=
  (∀ v : Cmd, (rows.filter (fun r => r.matches v)).length ≤ 1) ∧
  (SpelledBy .add 0x1000 ∧ SpelledBy .sub 0x2000 ∧ SpelledBy .mul 0x3000 ∧
    SpelledBy .div 0x4000 ∧ SpelledBy .sdiv 0x4100 ∧ SpelledBy .mod 0x4200 ∧ SpelledBy .smod 0x4300 ∧
    SpelledBy .cmp 0x5000 ∧ SpelledBy .scmp 0x5100 ∧ SpelledBy .eq 0x5200 ∧
    SpelledBy .lt 0x5400 ∧ SpelledBy .slt 0x5500 ∧ SpelledBy .le 0x5600 ∧ SpelledBy .sle 0x5700 ∧
    SpelledBy .gt 0x5800 ∧ SpelledBy .sgt 0x5900 ∧ SpelledBy .ge 0x5A00 ∧ SpelledBy .sge 0x5B00 ∧
    SpelledByShift .shl 0x6000 ∧ SpelledByShift .shr 0x7000 ∧ SpelledByShift .sar 0x7100 ∧
    SpelledBy .and 0x8000 ∧ SpelledBy .or 0x8200 ∧ SpelledBy .xor 0x8400 ∧ SpelledBy .not 0x8600 ∧
    SpelledBy .fmt 0x9000 ∧ SpelledBy .sfmt 0x9100) ∧
  (∀ i : Instr, formatOf i = .s ↔ ∃ n, i = .shl n ∨ i = .shr n ∨ i = .sar n) ∧
  (∀ i : Instr, formatOf i = .u ↔ i = .not ∨ i = .fmt ∨ i = .sfmt) ∧
  (∀ i : Instr, kindOf i = .order ↔ i = .cmp ∨ i = .scmp) ∧
  (∀ i : Instr, kindOf i = .truth ↔
    i = .eq ∨ i = .lt ∨ i = .slt ∨ i = .le ∨ i = .sle ∨ i = .gt ∨ i = .sgt ∨ i = .ge ∨ i = .sge) ∧
  (∀ i : Instr, kindOf i = .text ↔ i = .fmt ∨ i = .sfmt)

/-- D27: "one encoding per operation keeps the decoder a function with a unique inverse". -/
def Obligations.DecodeOfEncodeIsTheInstruction : Prop :=
  ∀ i : Instr, i.wellFormed = true → decode (encode i) = .instr i

/-- The other direction: a word that decodes is the encoding of what it decodes to. -/
def Obligations.EncodeOfDecodeIsTheWord : Prop :=
  ∀ (w : Cmd) (i : Instr), decode w = .instr i → i.wellFormed = true ∧ encode i = w

/-- R76: the reserved words are exactly the listed classes, 792 words are legal, and a request with a
reserved word is refused with no step taken. R76 does not say in what form the refusal is recorded: that it
carries the word and the class is the model's choice (log 16). -/
def Obligations.ReservedWordsAreTheListedClassesAndAreRefused : Prop :=
  (∀ w : Cmd, (∃ why, decode w = .reserved why) ↔
    ((unitOf w).toNat = 0 ∨ 0xA ≤ (unitOf w).toNat) ∨
    ((unitOf w).toNat ∈ [1, 2, 3, 6, 7, 9] ∧ (funcOf w).toNat ≠ 0) ∨
    ((unitOf w).toNat = 4 ∧ 2 ≤ (funcOf w).toNat) ∨
    ((unitOf w).toNat = 5 ∧ 6 ≤ (funcOf w).toNat) ∨
    ((unitOf w).toNat = 8 ∧ 4 ≤ (funcOf w).toNat) ∨
    (((unitOf w).toNat ∈ [1, 2, 3, 6, 8] ∨ ((unitOf w).toNat = 5 ∧ (funcOf w).toNat = 1)) ∧
      signOf w = 1) ∨
    ((unitOf w).toNat ≠ 6 ∧ (unitOf w).toNat ≠ 7 ∧ (amountOf w).toNat ≠ 0)) ∧
  (∃ legal : List Cmd, legal.Nodup ∧ legal.length = 792 ∧
    ∀ w : Cmd, w ∈ legal ↔ ∃ i, decode w = .instr i) ∧
  (∀ (s : State) (r : Request) (rest : List Request) (why : Reserved), s.requests = r :: rest →
    decode r.cmd = .reserved why → step s = .refused (.reservedCommand r.cmd why))

/-- R79: whether a command is legal does not depend on the operands, nor on anything else. What the refusal
carries is the model's choice (log 16). -/
def Obligations.LegalityIsDecidedByTheCommandWordAlone : Prop :=
  ∀ (s s' : State) (r r' : Request) (rest rest' : List Request),
    s.requests = r :: rest → s'.requests = r' :: rest' → r.cmd = r'.cmd →
    ((∃ t, step s = .next t) ↔ ∃ t', step s' = .next t') ∧
      ∀ why, step s = .refused (.reservedCommand r.cmd why) ↔
        step s' = .refused (.reservedCommand r'.cmd why)

/-- Words written out bit by bit from R70 to R74, one of every unit, and reserved ones. -/
def Obligations.SampleWordsDecodeAsTheSpecSays : Prop :=
  decode 0b0001000000000000 = .instr .add ∧ decode 0b0010000000000000 = .instr .sub ∧
  decode 0b0011000000000000 = .instr .mul ∧ decode 0b0100001100000000 = .instr .smod ∧
  decode 0b0101101000000000 = .instr .ge ∧ decode 0b0110000001000000 = .instr (.shl 64) ∧
  decode 0b0111000111111111 = .instr (.sar 255) ∧ decode 0b1000010000000000 = .instr .xor ∧
  decode 0b1001000100000000 = .instr .sfmt ∧
  decode 0x0000 = .reserved .unit ∧ decode 0x1001 = .reserved .amount ∧
  decode 0x5300 = .reserved .sign ∧ decode 0x5C00 = .reserved .func

/-! ### The machine -/

/-- R8, R79: a step performs the transaction of the decoded command and adds nothing to it: there is no
program counter to move and no instruction to fetch. -/
def Obligations.StepRunsTheDecodedInstruction : Prop :=
  ∀ (s : State) (r : Request) (rest : List Request) (i : Instr), s.requests = r :: rest →
    decode r.cmd = .instr i → step s = exec i s

/-- R9: the core never initiates anything. That this shows as a refusal is the model's choice (log 2). -/
def Obligations.NothingHappensWithoutARequest : Prop :=
  ∀ s : State, s.requests = [] →
    step s = .refused .noRequest ∧ ∀ i : Instr, exec i s = .refused .noRequest

/-- R32: the kind of every operation's response, and no value on a field of another kind. -/
def Obligations.EveryOperationRespondsWithItsKindOnly : Prop :=
  ∀ (i : Instr) (s : State) (r : Request) (rest : List Request), s.requests = r :: rest →
    ∃ rsp, exec i s = .next (s.answered r rsp rest) ∧
      ((portR rsp).isSome = true ↔
        i ∈ [.add, .sub, .mul, .div, .mod, .sdiv, .smod, .and, .or, .xor, .not] ∨
          ∃ n, i ∈ [.shl n, .shr n, .sar n]) ∧
      ((portC rsp).isSome = true ↔ i ∈ [.cmp, .scmp]) ∧
      ((portT rsp).isSome = true ↔ i ∈ [.eq, .lt, .le, .gt, .ge, .slt, .sle, .sgt, .sge]) ∧
      ((portLen rsp).isSome = true ↔ i ∈ [.fmt, .sfmt]) ∧
      (∀ k, (portStr rsp k).isSome = true ↔ i ∈ [.fmt, .sfmt])

/-- R270: no operation raises, and none fails to return a response of its kind. -/
def Obligations.NoOperationFaultsOrFailsToRespond : Prop :=
  (∀ (s : State) (e : Fault), step s ≠ .fault e) ∧
  ∀ (i : Instr) (s : State) (r : Request) (rest : List Request), s.requests = r :: rest →
    ∃ t rsp, exec i s = .next t ∧ t.response = some rsp ∧ responseKind rsp = kindOf i

/-- R28: the response depends on the transaction's own request and on nothing else. -/
def Obligations.ResponseDependsOnItsOwnRequestAlone : Prop :=
  ∀ (s s' t : State) (r : Request) (rest rest' : List Request), s.requests = r :: rest →
    s'.requests = r :: rest' → step s = .next t →
    ∃ t', step s' = .next t' ∧ t'.response = t.response

/-- R71, U14: a one-operand or shift command's response is the same for every `B`. -/
def Obligations.OperandBIsIgnoredByFormatsUAndS : Prop :=
  ∀ (i : Instr) (s s' : State) (r r' : Request) (rest rest' : List Request),
    formatOf i ≠ .r → s.requests = r :: rest → s'.requests = r' :: rest' → r.a = r'.a →
    ∃ rsp, exec i s = .next (s.answered r rsp rest) ∧ exec i s' = .next (s'.answered r' rsp rest')

/-- R27, R54, R292: a step answers the request on the port, whole, and only that one; what was recorded
stays and the other requests stay. -/
def Obligations.AStepIsOneWholeTransaction : Prop :=
  ∀ s t : State, step s = .next t →
    ∃ r rsp, s.requests = r :: t.requests ∧ t.response = some rsp ∧
      t.history = s.history ++ [⟨r, rsp⟩]

/-- The invariant holds after reset. The record and what it holds after reset are the model's choice (log 1,
log 3). -/
def Obligations.ResetMeetsTheInvariant : Prop := State.reset.Inv

/-- Every step keeps the invariant: every recorded response is the mathematical result of its own request
and the response port shows the last one. The record is the model's choice
(log 1). -/
def Obligations.EveryStepKeepsTheInvariant : Prop :=
  ∀ s t : State, s.Inv → step s = .next t → t.Inv

/-- So do the host's actions and a reset. The clause that the response port shows the last recorded response is
kept by the model's choices: `present` leaves the old response showing while the new request stands (log 1),
and `assertReset` empties the record with the port (log 3). -/
def Obligations.HostActionsAndResetKeepTheInvariant : Prop :=
  ∀ s : State, s.Inv → (∀ rs, (s.plan rs).Inv) ∧ (assertReset s).Inv ∧
    ∀ r t, present s r = .next t → t.Inv

/-- R57, R292: a stream of legal requests is answered to its end, in request order, each with the
contract's response. -/
def Obligations.ALegalStreamIsAnsweredInOrder : Prop :=
  ∀ s : State, s.safe = true →
    ∃ (t : State) (rsps : List Response), core.run s.requests.length s = .next t ∧
      t.requests = [] ∧ rsps.map some = s.requests.map Request.answer ∧
      t.history = s.history ++ List.zipWith Transaction.mk s.requests rsps

/-- R57: transactions are performed one at a time, in the order the host issues them, and any two commute:
under every order of the same requests each gets the same response. -/
def Obligations.TransactionsCommute : Prop :=
  ∀ s s' : State, s.safe = true → s.requests.Perm s'.requests → s.history = s'.history →
    ∃ t t' : State, core.run s.requests.length s = .next t ∧
      core.run s'.requests.length s' = .next t' ∧
      t.history.map Transaction.request = s.history.map Transaction.request ++ s.requests ∧
      t'.history.map Transaction.request = s'.history.map Transaction.request ++ s'.requests ∧
      t.history.Perm t'.history

/-- R292, U12: no second request before the response to the first. That it shows as the refusal `busy` is read
from U12 (DEDUCED, log 14); that the response port still shows the last response while the next request
stands is the model's choice (log 1). -/
def Obligations.NoSecondRequestBeforeTheResponse : Prop :=
  ∀ (s : State) (r : Request),
    (s.requests ≠ [] → present s r = .refused .busy) ∧
    (s.requests = [] → ∃ t, present s r = .next t ∧ t.port = some r ∧ t.response = s.response ∧
      t.history = s.history)

/-- R39, R290: what reset leaves, and that the first transaction after it is like any other. That it also drops
the requests not yet made and the record is the model's choice (log 3). -/
def Obligations.ResetLeavesNothingBehind : Prop :=
  (∀ s : State, (assertReset s).requests = [] ∧ (assertReset s).response = none ∧
    (assertReset s).history = []) ∧
  ∀ (s u : State) (r : Request) (rest : List Request) (t : State), u.requests = r :: rest →
    step u = .next t → ∃ v t', present (assertReset s) r = .next v ∧ step v = .next t' ∧
      t'.response = t.response

/-- R7: the limb formulas the machine computes with and the mathematical results a native backend returns
are the same response, for every operation and every request. -/
def Obligations.LimbBackendMeetsTheContract : Prop := ∀ i : Instr, AnswersWith i (contract i)

/-! ### Adder and subtractor -/

/-- R150: the encoding, the limb formulas and the result under both readings. -/
def Obligations.AddWrapsModuloTwoToThe128 : Prop :=
  SpelledBy .add 0x1000 ∧ formatOf .add = .r ∧ decode 0x1100 = .reserved .sign ∧
  ∀ (s : State) (r : Request) (rest : List Request), s.requests = r :: rest →
    ∃ v : Word, exec .add s = .next (s.answered r (.word v) rest) ∧
      (low v).toNat = ((low r.a).toNat + (low r.b).toNat) % 2 ^ 64 ∧
      (high v).toNat = ((high r.a).toNat + (high r.b).toNat +
        (if (low v).toNat < (low r.a).toNat then 1 else 0)) % 2 ^ 64 ∧
      v.toNat = (r.a.toNat + r.b.toNat) % 2 ^ 128 ∧
      v.toInt = (r.a.toInt + r.b.toInt).bmod (2 ^ 128)

/-- R151: the encoding, the limb formulas and the result under both readings. -/
def Obligations.SubWrapsModuloTwoToThe128 : Prop :=
  SpelledBy .sub 0x2000 ∧ formatOf .sub = .r ∧ decode 0x2100 = .reserved .sign ∧
  ∀ (s : State) (r : Request) (rest : List Request), s.requests = r :: rest →
    ∃ v : Word, exec .sub s = .next (s.answered r (.word v) rest) ∧
      ((low v).toNat : Int) = ((low r.a).toNat - (low r.b).toNat : Int) % 2 ^ 64 ∧
      ((high v).toNat : Int) = ((high r.a).toNat - (high r.b).toNat -
        (if (low r.a).toNat < (low r.b).toNat then 1 else 0) : Int) % 2 ^ 64 ∧
      (v.toNat : Int) = (r.a.toNat - r.b.toNat : Int) % 2 ^ 128 ∧
      v.toInt = (r.a.toInt - r.b.toInt).bmod (2 ^ 128)

/-- R152: the carry of an addition and the borrow of a subtraction, recovered with LT. -/
def Obligations.CarryAndBorrowAreRecoveredByLessThan : Prop :=
  ∀ a b : Word,
    (∃ v, responseOf .add a b = some (.word v) ∧
      responseOf .lt v a = some (.truth (decide (2 ^ 128 ≤ a.toNat + b.toNat)))) ∧
    responseOf .lt a b = some (.truth (decide (a.toNat - b.toNat < (0 : Int))))

/-- R153: commutativity, whichever addend the carry test is written on, the additive inverse, and SUB as
the inverse of ADD. -/
def Obligations.AdditionLaws : Prop :=
  ∀ a b : Word,
    responseOf .add a b = responseOf .add b a ∧
    (∀ v, responseOf .add a b = some (.word v) →
      ((low v).toNat < (low a).toNat ↔ (low v).toNat < (low b).toNat)) ∧
    (∃ n, responseOf .sub u128Min a = some (.word n) ∧ responseOf .add a n = some (.word u128Min)) ∧
    (∃ v, responseOf .add a b = some (.word v) ∧ responseOf .sub v b = some (.word a))

/-! ### Multiplier -/

/-- R190: the half-limb arrangement, its bounds, and the full product. -/
def Obligations.HalfLimbProductIsExact : Prop :=
  ∀ (x y : Limb) (p00 p01 p10 p11 mid : Nat),
    p00 = x.toNat % 2 ^ 32 * (y.toNat % 2 ^ 32) → p01 = x.toNat % 2 ^ 32 * (y.toNat / 2 ^ 32) →
    p10 = x.toNat / 2 ^ 32 * (y.toNat % 2 ^ 32) → p11 = x.toNat / 2 ^ 32 * (y.toNat / 2 ^ 32) →
    mid = p00 / 2 ^ 32 + p01 % 2 ^ 32 + p10 % 2 ^ 32 →
    (p00 < 2 ^ 64 ∧ p01 < 2 ^ 64 ∧ p10 < 2 ^ 64 ∧ p11 < 2 ^ 64 ∧ mid < 3 * 2 ^ 32) ∧
    (mul64x64 x y).2.toNat = mid % 2 ^ 32 * 2 ^ 32 + p00 % 2 ^ 32 ∧
    (mul64x64 x y).1.toNat = p11 + p01 / 2 ^ 32 + p10 / 2 ^ 32 + mid / 2 ^ 32 ∧
    (mul64x64 x y).1.toNat * 2 ^ 64 + (mul64x64 x y).2.toNat = x.toNat * y.toNat

/-- R191: the encoding, the limb formulas and the result. -/
def Obligations.MulIsTheLowHalfOfTheProduct : Prop :=
  SpelledBy .mul 0x3000 ∧ formatOf .mul = .r ∧ decode 0x3100 = .reserved .sign ∧
  ∀ (s : State) (r : Request) (rest : List Request), s.requests = r :: rest →
    ∃ v : Word, exec .mul s = .next (s.answered r (.word v) rest) ∧
      low v = (mul64x64 (low r.a) (low r.b)).2 ∧
      (high v).toNat = ((mul64x64 (low r.a) (low r.b)).1.toNat +
        (high r.a).toNat * (low r.b).toNat + (low r.a).toNat * (high r.b).toNat) % 2 ^ 64 ∧
      v.toNat = r.a.toNat * r.b.toNat % 2 ^ 128

/-- R192, R193: multiplication commutes and is right under the signed reading. -/
def Obligations.MultiplicationCommutesAndIsSignedToo : Prop :=
  ∀ a b : Word,
    responseOf .mul a b = responseOf .mul b a ∧
    ∃ v, responseOf .mul a b = some (.word v) ∧ v.toInt = (a.toInt * b.toInt).bmod (2 ^ 128)

/-! ### Divider -/

/-- R201: what the long division computes. -/
def Obligations.LongDivisionIsFloorDivision : Prop :=
  ∀ a b : Word,
    (b ≠ 0 → (udivmod .zero a b).1.toNat = a.toNat / b.toNat ∧
      (udivmod .zero a b).2.toNat = a.toNat - (udivmod .zero a b).1.toNat * b.toNat ∧
      (udivmod .zero a b).2.toNat < b.toNat) ∧
    (b = 0 → udivmod .zero a b = (0, 0))

/-- R202: the unsigned quotient, zero for a zero divisor. -/
def Obligations.DivIsUnsignedFloorDivision : Prop :=
  SpelledBy .div 0x4000 ∧ formatOf .div = .r ∧
  ∀ (s : State) (r : Request) (rest : List Request), s.requests = r :: rest →
    ∃ v : Word, exec .div s = .next (s.answered r (.word v) rest) ∧
      (r.b = 0 → v = 0) ∧ (r.b ≠ 0 → v.toNat = r.a.toNat / r.b.toNat)

/-- R203: the unsigned remainder, zero for a zero divisor. -/
def Obligations.ModIsUnsignedRemainder : Prop :=
  SpelledBy .mod 0x4200 ∧ formatOf .mod = .r ∧
  ∀ (s : State) (r : Request) (rest : List Request), s.requests = r :: rest →
    ∃ v : Word, exec .mod s = .next (s.answered r (.word v) rest) ∧
      (r.b = 0 → v = 0) ∧ (r.b ≠ 0 → v.toNat = r.a.toNat % r.b.toNat)

/-- R204: signed division by way of the unsigned kernel and, away from a zero divisor and the overflowing
quotient, what it computes. -/
def Obligations.SignedDivisionTruncatesTowardZero : Prop :=
  (∀ a b : Word,
    (sdivmod .zero a b).1 = (if a.getLsbD 127 ≠ b.getLsbD 127
      then neg (udivmod .zero (Machine.abs a) (Machine.abs b)).1
      else (udivmod .zero (Machine.abs a) (Machine.abs b)).1) ∧
    (sdivmod .zero a b).2 = (if a.getLsbD 127 = true
      then neg (udivmod .zero (Machine.abs a) (Machine.abs b)).2
      else (udivmod .zero (Machine.abs a) (Machine.abs b)).2)) ∧
  (Machine.abs i128Min = i128Min ∧ i128Min.toNat = 2 ^ 127 ∧ neg 0 = 0) ∧
  ∀ a b : Word, b ≠ 0 → ¬ (a = i128Min ∧ b = u128Max) →
    (sdivmod .zero a b).1.toInt = a.toInt.tdiv b.toInt ∧
    (sdivmod .zero a b).2.toInt = a.toInt - (sdivmod .zero a b).1.toInt * b.toInt ∧
    (sdivmod .zero a b).2.toInt.natAbs < b.toInt.natAbs ∧
    ((sdivmod .zero a b).2 = 0 ∨ isNegative (sdivmod .zero a b).2 = isNegative a)

/-- R205: the signed quotient, at a zero divisor and at the overflowing quotient too. -/
def Obligations.SdivIsTruncatingDivision : Prop :=
  SpelledBy .sdiv 0x4100 ∧ formatOf .sdiv = .r ∧
  ∀ (s : State) (r : Request) (rest : List Request), s.requests = r :: rest →
    ∃ v : Word, exec .sdiv s = .next (s.answered r (.word v) rest) ∧
      (r.b = 0 → v = 0) ∧
      (r.a = i128Min → r.b = u128Max → v = i128Min) ∧
      (r.b ≠ 0 → ¬ (r.a = i128Min ∧ r.b = u128Max) → v.toInt = r.a.toInt.tdiv r.b.toInt)

/-- R206: the signed remainder. -/
def Obligations.SmodIsTruncatingRemainder : Prop :=
  SpelledBy .smod 0x4300 ∧ formatOf .smod = .r ∧
  ∀ (s : State) (r : Request) (rest : List Request), s.requests = r :: rest →
    ∃ v : Word, exec .smod s = .next (s.answered r (.word v) rest) ∧
      (r.b = 0 → v = 0) ∧ (r.b ≠ 0 → v.toInt = r.a.toInt.tmod r.b.toInt)

/-- R208: the division identity in operations, unsigned and signed, as an equality of words; for a zero
divisor its left side is zero. -/
def Obligations.DivisionIdentity : Prop :=
  ∀ a b : Word,
    (∃ q r p, responseOf .div a b = some (.word q) ∧ responseOf .mod a b = some (.word r) ∧
      responseOf .mul q b = some (.word p) ∧
      responseOf .add p r = some (.word (if b = 0 then 0 else a))) ∧
    (∃ q r p, responseOf .sdiv a b = some (.word q) ∧ responseOf .smod a b = some (.word r) ∧
      responseOf .mul q b = some (.word p) ∧
      responseOf .add p r = some (.word (if b = 0 then 0 else a)))

/-- U3: under the other reading of `MOD_BY_ZERO` both remainders by zero are the dividend, the signed
minimum included, both quotients stay zero, and no other result changes. -/
def Obligations.DividendReadingOfModByZero : Prop :=
  ∀ a b : Word,
    udivmod .dividend a 0 = (0, a) ∧ sdivmod .dividend a 0 = (0, a) ∧
    (b ≠ 0 → udivmod .dividend a b = udivmod .zero a b ∧ sdivmod .dividend a b = sdivmod .zero a b)

/-! ### Comparator -/

/-- R122, R123: the three-way comparisons, unsigned and signed. -/
def Obligations.ThreeWayComparisons : Prop :=
  SpelledBy .cmp 0x5000 ∧ SpelledBy .scmp 0x5100 ∧ formatOf .cmp = .r ∧ formatOf .scmp = .r ∧
  ∀ (s : State) (r : Request) (rest : List Request), s.requests = r :: rest →
    (∃ rsp, exec .cmp s = .next (s.answered r rsp rest) ∧
      portC rsp = some (if r.a.toNat < r.b.toNat then 0b001
        else if r.a.toNat = r.b.toNat then 0b010 else 0b100)) ∧
    (∃ rsp, exec .scmp s = .next (s.answered r rsp rest) ∧
      portC rsp = some (if r.a.toInt < r.b.toInt then 0b001
        else if r.a.toInt = r.b.toInt then 0b010 else 0b100))

/-- R124: equality of the limbs, which is equality of the words, and when CMP and SCMP give equal. -/
def Obligations.EqIsEqualityOfPatterns : Prop :=
  SpelledBy .eq 0x5200 ∧ formatOf .eq = .r ∧ decode 0x5300 = .reserved .sign ∧
  (∀ a b : Word, (high a = high b ∧ low a = low b) ↔ a = b) ∧
  AnswersWith .eq (fun a b => .truth (decide (high a = high b ∧ low a = low b))) ∧
  ∀ a b : Word, ∀ i ∈ [Instr.cmp, .scmp],
    responseOf .eq a b = some (.truth true) ↔ responseOf i a b = some (.order .equal)

/-- R125 to R128: the unsigned predicates. -/
def Obligations.UnsignedPredicates : Prop :=
  SpelledBy .lt 0x5400 ∧ SpelledBy .le 0x5600 ∧ SpelledBy .gt 0x5800 ∧ SpelledBy .ge 0x5A00 ∧
  (∀ i ∈ [Instr.lt, .le, .gt, .ge], formatOf i = .r) ∧
  AnswersWith .lt (fun a b => .truth (decide (a.toNat < b.toNat))) ∧
  AnswersWith .le (fun a b => .truth (decide (a.toNat ≤ b.toNat))) ∧
  AnswersWith .gt (fun a b => .truth (decide (a.toNat > b.toNat))) ∧
  AnswersWith .ge (fun a b => .truth (decide (a.toNat ≥ b.toNat)))

/-- R129 to R132: the signed predicates. -/
def Obligations.SignedPredicates : Prop :=
  SpelledBy .slt 0x5500 ∧ SpelledBy .sle 0x5700 ∧ SpelledBy .sgt 0x5900 ∧ SpelledBy .sge 0x5B00 ∧
  (∀ i ∈ [Instr.slt, .sle, .sgt, .sge], formatOf i = .r) ∧
  AnswersWith .slt (fun a b => .truth (decide (a.toInt < b.toInt))) ∧
  AnswersWith .sle (fun a b => .truth (decide (a.toInt ≤ b.toInt))) ∧
  AnswersWith .sgt (fun a b => .truth (decide (a.toInt > b.toInt))) ∧
  AnswersWith .sge (fun a b => .truth (decide (a.toInt ≥ b.toInt)))

/-- R133: both orders are total, equal only for identical patterns, transitive and antisymmetric; LE is
the complement of GT, GE of LT, and EQ is LE and GE together. -/
def Obligations.BothOrdersAreTotal : Prop :=
  ∀ cmp ∈ [ucmp, scmp],
    (∀ a b : Word, cmp a b = .equal ↔ a = b) ∧
    (∀ a b c : Word, cmp a b = .less → cmp b c = .less → cmp a c = .less) ∧
    (∀ a b : Word, cmp a b = .less ↔ cmp b a = .greater) ∧
    (∀ a b : Word, (cmp a b).isLe = !(cmp a b).isGt ∧ (cmp a b).isGe = !(cmp a b).isLt ∧
      eqWord a b = ((cmp a b).isLe && (cmp a b).isGe))

/-! ### Bitwise logic -/

/-- R140 to R143: the four logic operations bit by bit. -/
def Obligations.LogicIsBitwise : Prop :=
  SpelledBy .and 0x8000 ∧ SpelledBy .or 0x8200 ∧ SpelledBy .xor 0x8400 ∧ SpelledBy .not 0x8600 ∧
  (∀ i ∈ [Instr.and, .or, .xor], formatOf i = .r) ∧ formatOf .not = .u ∧
  ∀ (s : State) (r : Request) (rest : List Request), s.requests = r :: rest →
    (∃ v, exec .and s = .next (s.answered r (.word v) rest) ∧
      ∀ i < 128, v.getLsbD i = (r.a.getLsbD i && r.b.getLsbD i)) ∧
    (∃ v, exec .or s = .next (s.answered r (.word v) rest) ∧
      ∀ i < 128, v.getLsbD i = (r.a.getLsbD i || r.b.getLsbD i)) ∧
    (∃ v, exec .xor s = .next (s.answered r (.word v) rest) ∧
      ∀ i < 128, v.getLsbD i = (r.a.getLsbD i != r.b.getLsbD i)) ∧
    (∃ v, exec .not s = .next (s.answered r (.word v) rest) ∧
      ∀ i < 128, v.getLsbD i = !r.a.getLsbD i)

/-! ### Shifters -/

/-- R170, R174, R178: the shift functions for every amount: what they compute, and the limb formulas. -/
def Obligations.ShiftFunctionsForEveryAmount : Prop :=
  ∀ (v : Word) (n : Nat),
    (shl v n).toNat = v.toNat * 2 ^ n % 2 ^ 128 ∧
    (shr v n).toNat = v.toNat / 2 ^ n ∧
    (sar v n).toInt = v.toInt / 2 ^ n ∧
    (v.getLsbD 127 = false → sar v n = shr v n) ∧
    (128 ≤ n → shl v n = 0 ∧ shr v n = 0 ∧ sar v n = if v.getLsbD 127 then u128Max else 0) ∧
    (n = 0 → shl v n = v ∧ shr v n = v ∧ sar v n = v) ∧
    (64 ≤ n → n ≤ 127 → shl v n = fromParts (low v <<< (n - 64)) 0 ∧
      shr v n = fromParts 0 (high v >>> (n - 64)) ∧
      high (sar v n) = (if v.getLsbD 127 then 0xFFFFFFFFFFFFFFFF else 0) ∧
      (low (sar v n)).toInt = (high v).toInt / 2 ^ (n - 64)) ∧
    (1 ≤ n → n ≤ 63 →
      shl v n = fromParts (high v <<< n ||| low v >>> (64 - n)) (low v <<< n) ∧
      shr v n = fromParts (high v >>> n) (low v >>> n ||| high v <<< (64 - n)) ∧
      (high (sar v n)).toInt = (high v).toInt / 2 ^ n ∧
      low (sar v n) = low v >>> n ||| high v <<< (64 - n))

/-- R172: left shift; vacated bits are zero, bits beyond 127 are discarded. -/
def Obligations.ShlShiftsLeft : Prop :=
  SpelledByShift .shl 0x6000 ∧ (∀ n, formatOf (.shl n) = .s) ∧
  (∀ n : BitVec 8, decode (0x6100 ||| n.setWidth 16) = .reserved .sign) ∧
  ∀ (n : Nat) (s : State) (r : Request) (rest : List Request), s.requests = r :: rest →
    ∃ v : Word, exec (.shl n) s = .next (s.answered r (.word v) rest) ∧
      v.toNat = r.a.toNat * 2 ^ n % 2 ^ 128 ∧
      ∀ i < 128, v.getLsbD i = (decide (n ≤ i) && r.a.getLsbD (i - n))

/-- R176: logical right shift; vacated bits are zero. -/
def Obligations.ShrShiftsRightFillingZeros : Prop :=
  SpelledByShift .shr 0x7000 ∧ (∀ n, formatOf (.shr n) = .s) ∧
  ∀ (n : Nat) (s : State) (r : Request) (rest : List Request), s.requests = r :: rest →
    ∃ v : Word, exec (.shr n) s = .next (s.answered r (.word v) rest) ∧
      v.toNat = r.a.toNat / 2 ^ n ∧
      ∀ i < 128, v.getLsbD i = (decide (n + i < 128) && r.a.getLsbD (n + i))

/-- R180, R183: arithmetic right shift; the word of signed value `floor(S(A) / 2^n)`. -/
def Obligations.SarShiftsRightFillingTheSign : Prop :=
  SpelledByShift .sar 0x7100 ∧ (∀ n, formatOf (.sar n) = .s) ∧
  ∀ (n : Nat) (s : State) (r : Request) (rest : List Request), s.requests = r :: rest →
    ∃ v : Word, exec (.sar n) s = .next (s.answered r (.word v) rest) ∧
      v.toInt = r.a.toInt / 2 ^ n ∧
      ∀ i < 128, v.getLsbD i = if n + i < 128 then r.a.getLsbD (n + i) else isNegative r.a

/-! ### Formatter -/

/-- R252: the canonical decimal numeral of the unsigned value, at most 39 characters, on the port as `LEN`
and `STR`. -/
def Obligations.FmtWritesTheCanonicalNumeral : Prop :=
  SpelledBy .fmt 0x9000 ∧ formatOf .fmt = .u ∧
  ∀ (s : State) (r : Request) (rest : List Request), s.requests = r :: rest →
    ∃ (rsp : Response) (ds : List Nat), exec .fmt s = .next (s.answered r rsp rest) ∧
      (∀ d ∈ ds, d < 10) ∧ ds.foldl (fun n d => 10 * n + d) 0 = r.a.toNat ∧
      (ds = [0] ∨ ds.head? ≠ some 0) ∧ 1 ≤ ds.length ∧ ds.length ≤ 39 ∧
      portLen rsp = some (BitVec.ofNat 6 ds.length) ∧
      ∀ k : Fin Config.strMax,
        portStr rsp k = some ((ds.map fun d => BitVec.ofNat 8 (0x30 + d)).getD k 0x00)

/-- R253: the magnitude's canonical numeral, behind a minus sign when the signed value is negative, at
most 40 characters, on the port as `LEN` and `STR`. -/
def Obligations.SfmtWritesTheSignedNumeral : Prop :=
  SpelledBy .sfmt 0x9100 ∧ formatOf .sfmt = .u ∧
  ∀ (s : State) (r : Request) (rest : List Request), s.requests = r :: rest →
    ∃ (rsp : Response) (ds : List Nat), exec .sfmt s = .next (s.answered r rsp rest) ∧
      (∀ d ∈ ds, d < 10) ∧ ds.foldl (fun n d => 10 * n + d) 0 = r.a.toInt.natAbs ∧
      (ds = [0] ∨ ds.head? ≠ some 0) ∧ 1 ≤ ds.length ∧ ds.length ≤ 39 ∧
      portLen rsp = some (BitVec.ofNat 6 (if r.a.toInt < 0 then ds.length + 1 else ds.length)) ∧
      ∀ k : Fin Config.strMax,
        portStr rsp k = some (((if r.a.toInt < 0 then [0x2D] else []) ++
          ds.map fun d => BitVec.ofNat 8 (0x30 + d)).getD k 0x00)

/-- R31, R254: the port coding of the responses the operations give: `C` is one-hot, `T` is 1 for true, `LEN` is the number
of characters, 1 to 40, and the bytes of `STR` after the last character are zero. -/
def Obligations.ResponsePortCoding : Prop :=
  (∀ c : Order, portC (.order c) ∈ [some 0b001, some 0b010, some 0b100]) ∧
  (∀ t : Bool, portT (.truth t) = some (if t then 1 else 0)) ∧
  ∀ i ∈ [Instr.fmt, Instr.sfmt], ∀ a b : Word, ∃ rsp len,
    responseOf i a b = some rsp ∧ portLen rsp = some len ∧ 1 ≤ len.toNat ∧ len.toNat ≤ 40 ∧
    ∀ k : Fin Config.strMax, (len.toNat ≤ k → portStr rsp k = some 0x00) ∧
      (k < len.toNat → ∃ c, portStr rsp k = some c ∧ c ≠ 0x00)

/-! ### The signed adapter, conversions, and the host's side -/

/-- R230, R231: negation, as the function and as either sequence of transactions. -/
def Obligations.NegationWrapsAndBothFormsAgree : Prop :=
  ∀ v : Word,
    (∃ t, responseOf .not v 0 = some (.word t) ∧
      responseOf .add t (fromParts 0 1) = some (.word (neg v))) ∧
    responseOf .sub (fromParts 0 0) v = some (.word (neg v)) ∧
    (neg v).toNat = (2 ^ 128 - v.toNat) % 2 ^ 128 ∧
    (v ≠ i128Min → (neg v).toInt = -v.toInt) ∧ neg i128Min = i128Min ∧ neg (neg v) = v ∧
    (neg v = v ↔ v = u128Min ∨ v = i128Min)

/-- R232: the magnitude, as the function and as the pseudo-instruction `ABS d, a` of a name. That the value `p`
of R82's expansion gets no name, so that only `d` changes, and that `ABS` uses the first form of `NEG`, so
that a negative word takes three transactions, is the model's choice (log 10). -/
def Obligations.AbsIsTheMagnitude : Prop :=
  (∀ v : Word, Machine.abs v = (if v.getLsbD 127 then neg v else v) ∧ (Machine.abs v).toNat = v.toInt.natAbs ∧
    (v ≠ i128Min → 0 ≤ (Machine.abs v).toInt)) ∧ Machine.abs i128Min = i128Min ∧
  ∀ (h : HostState) (d x : String) (v : Word), h.store.read x = some (.word v) → h.core.requests = [] →
    ∃ c, runPseudo (.abs d (.name x)) h = .next ⟨h.store.write d (.word (Machine.abs v)), c⟩ ∧
      c.requests = [] ∧ c.history.length = h.core.history.length + (if v.toInt < 0 then 3 else 1)

/-- R22, R100, R101: limbs and words. -/
def Obligations.LimbRoundTrip : Prop :=
  (∀ h l : Limb, high (fromParts h l) = h ∧ low (fromParts h l) = l ∧
    (fromParts h l).toNat = h.toNat * 2 ^ 64 + l.toNat ∧
    (∀ i < 128, (fromParts h l).getLsbD i = if i < 64 then l.getLsbD i else h.getLsbD (i - 64)) ∧
    (fromParts h l).toInt = h.toInt * 2 ^ 64 + l.toNat) ∧
  ∀ v : Word, fromParts (high v) (low v) = v ∧
    ∀ i < 64, (high v).getLsbD i = v.getLsbD (i + 64) ∧ (low v).getLsbD i = v.getLsbD i

/-- R102 to R104: widening keeps the value, narrowing keeps the low bits and undoes widening. -/
def Obligations.WideningAndNarrowing : Prop :=
  ∀ k ∈ [8, 16, 32, 64], ∀ (x : BitVec k) (v : Word),
    (widenUnsigned x).toNat = x.toNat ∧ high (widenUnsigned x) = 0 ∧
    (widenSigned x).toInt = x.toInt ∧
    high (widenSigned x) = (if x.msb then 0xFFFFFFFFFFFFFFFF else 0) ∧
    (narrow k v).toNat = v.toNat % 2 ^ k ∧
    narrow k (widenUnsigned x) = x ∧ narrow k (widenSigned x) = x

/-- R82, R230, R231: the pseudo-instruction `NEG d, a` run by a host on an idle core, in both forms: two
transactions or one, the same word in `d`, every other name as it was. -/
def Obligations.NegPseudoInstructionRuns : Prop :=
  ∀ (h : HostState) (d x : String) (v : Word), h.store.read x = some (.word v) →
    h.core.requests = [] →
    (∃ c, runPseudo (.neg d (.name x)) h = .next ⟨h.store.write d (.word (neg v)), c⟩ ∧
      c.requests = [] ∧ c.history.length = h.core.history.length + 2) ∧
    (∃ c, runPseudo (.negBySub d (.name x)) h = .next ⟨h.store.write d (.word (neg v)), c⟩ ∧
      c.requests = [] ∧ c.history.length = h.core.history.length + 1)

/-- R80, R82: `ISZERO p, a` and `NE p, a, b`, one EQ each. The meaning of `!` is the spec's own decision
(D24). -/
def Obligations.IsZeroAndNePseudoInstructionsRun : Prop :=
  ∀ (h : HostState) (p x y : String) (v w : Word), h.store.read x = some (.word v) →
    h.store.read y = some (.word w) → h.core.requests = [] →
    (∃ c, runPseudo (.isZero p (.name x)) h = .next ⟨h.store.write p (.truth (decide (v = 0))), c⟩ ∧
      c.requests = [] ∧ c.history.length = h.core.history.length + 1) ∧
    (∃ c, runPseudo (.ne p (.name x) (.name y)) h =
        .next ⟨h.store.write p (.truth (decide (v ≠ w))), c⟩ ∧
      c.requests = [] ∧ c.history.length = h.core.history.length + 1)

/-- R75, R82, R105: the host's wiring never costs a transaction; `POS`, `HIGH` and `LOW` of a name that holds a
word and `FROM_PARTS` of two names that hold limbs never fail. -/
def Obligations.WiringCostsNoTransaction : Prop :=
  (∀ (k : Nat) (d : String) (e : Wire) (h g : HostState),
    runScript k (.wire d e) h = .next g → g.core = h.core) ∧
  (∀ (k : Nat) (d x : String) (h : HostState) (v : Word), h.store.read x = some (.word v) →
    runScript (k + 1) (.wire d (.copy (.name x))) h = .next ⟨h.store.write d (.word v), h.core⟩ ∧
    runScript (k + 1) (.wire d (.slice (.name x) 127 64)) h =
      .next ⟨h.store.write d (.native 64 (high v).toNat), h.core⟩ ∧
    runScript (k + 1) (.wire d (.slice (.name x) 63 0)) h =
      .next ⟨h.store.write d (.native 64 (low v).toNat), h.core⟩) ∧
  ∀ (k : Nat) (d y z : String) (h : HostState) (a b : Limb),
    h.store.read y = some (.native 64 a.toNat) → h.store.read z = some (.native 64 b.toNat) →
    runScript (k + 1) (.wire d (.pair y z)) h =
      .next ⟨h.store.write d (.word (fromParts a b)), h.core⟩

/-- R83: a compound form `x op= y` or `x op= n` uses the value the receiver had when the request was made
and replaces it whole; other names keep their values. -/
def Obligations.CompoundFormsReplaceTheReceiver : Prop :=
  (∀ i ∈ [Instr.add, .sub, .mul, .div, .sdiv, .mod, .smod, .and, .or, .xor],
    ∀ (h : HostState) (x y : String) (v w : Word), h.store.read x = some (.word v) →
    h.store.read y = some (.word w) → h.core.requests = [] →
    ∃ g rsp, runLine (.two i x (.name x) (.name y)) h = .next g ∧ responseOf i v w = some rsp ∧
      g.store.read x = some rsp.toValue ∧ (∀ z, z ≠ x → g.store.read z = h.store.read z) ∧
      g.core.requests = []) ∧
  ∀ (op : ShiftOp) (n : Nat) (h : HostState) (x : String) (v : Word), n ≤ 255 →
    h.store.read x = some (.word v) → h.core.requests = [] →
    ∃ g rsp, runLine (.shift op x (.name x) n) h = .next g ∧
      responseOf (op.instr n) v 0 = some rsp ∧ g.store.read x = some rsp.toValue ∧
      (∀ z, z ≠ x → g.store.read z = h.store.read z) ∧ g.core.requests = []

/-- A script, whatever it is, keeps the core's invariant, leaves no request unanswered and no name listed
twice, and what was recorded stays. The record and the old response that shows beside a new request are the
model's choice (log 1), the script's bound and `repeat` too (log 10). -/
def Obligations.EveryScriptKeepsTheInvariant : Prop :=
  ∀ (k : Nat) (c : Script) (h g : HostState), h.core.Inv → h.core.requests = [] →
    (h.store.map Prod.fst).Nodup → runScript k c h = .next g →
    g.core.Inv ∧ g.core.requests = [] ∧ (g.store.map Prod.fst).Nodup ∧
      h.core.history <+: g.core.history

/-- R74, U1: of a shift line with an amount outside 0 to 255 no command is formed and nothing is sent;
inside, the command word carries the amount as it stands. That the amount is looked at before the operand,
so that the line is refused even where the operand was never written, is the model's choice (log 17). -/
def Obligations.ShiftAmountIsNeverTruncated : Prop :=
  ∀ (op : ShiftOp) (d x : String) (n : Int) (h : HostState),
    (n < 0 → assemble (.shift op d (.name x) n) = .refused (.negativeShift n) ∧
      runLine (.shift op d (.name x) n) h = .refused (.negativeShift n)) ∧
    (255 < n → assemble (.shift op d (.name x) n) = .refused (.shiftTooLarge n) ∧
      runLine (.shift op d (.name x) n) h = .refused (.shiftTooLarge n)) ∧
    (0 ≤ n → n ≤ 255 → ∃ w, assemble (.shift op d (.name x) n) = .next w ∧
      (w &&& 0x00FF).toNat = n.toNat ∧ decode w = .instr (op.instr n.toNat))

/-- R291, U13: a host's read of a name nothing has written faults, wherever a script reads one: in a line of
any format, a pseudo-instruction, a wiring expression or a condition. Which stop comes first where a line has
several causes is the model's choice (log 17): a shift's amount is in range here, and a second operand is
reached where the first one is readable. -/
def Obligations.UnwrittenHostValueFaults : Prop :=
  ∀ (h : HostState) (x : String), h.store.read x = none →
    (∀ (i : Instr) (d : String) (b : Operand), formatOf i = .r →
      runLine (.two i d (.name x) b) h = .fault (.unwrittenValue x)) ∧
    (∀ (i : Instr) (d : String) (a : Operand) (v : Word), formatOf i = .r →
      readOperand h.store a = .next v →
      runLine (.two i d a (.name x)) h = .fault (.unwrittenValue x)) ∧
    (∀ (i : Instr) (d : String), formatOf i = .u →
      runLine (.one i d (.name x)) h = .fault (.unwrittenValue x)) ∧
    (∀ (op : ShiftOp) (d : String) (n : Int), 0 ≤ n → n ≤ 255 →
      runLine (.shift op d (.name x) n) h = .fault (.unwrittenValue x)) ∧
    (∀ (d : String) (b : Operand), ∀ p ∈ [Pseudo.neg d (.name x), .negBySub d (.name x),
        .abs d (.name x), .isZero d (.name x), .ne d (.name x) b],
      runPseudo p h = .fault (.unwrittenValue x)) ∧
    (∀ (d : String) (a : Operand) (v : Word), readOperand h.store a = .next v →
      runPseudo (.ne d a (.name x)) h = .fault (.unwrittenValue x)) ∧
    (∀ (y : String) (hi lo : Nat), ∀ e ∈ [Wire.copy (.name x), .slice (.name x) hi lo, .pair x y,
        .widenUnsigned x, .widenSigned x, .digitBefore (.name x) y],
      wireValue h.store e = .fault (.unwrittenValue x)) ∧
    (∀ (y : String) (n : Nat × Nat), readNative h.store y = .next n →
      wireValue h.store (.pair y x) = .fault (.unwrittenValue x)) ∧
    (∀ (a : Operand) (v : Word), readOperand h.store a = .next v →
      wireValue h.store (.digitBefore a x) = .fault (.unwrittenValue x)) ∧
    (∀ (k : Nat) (d : String) (e : Wire), wireValue h.store e = .fault (.unwrittenValue x) →
      runScript (k + 1) (.wire d e) h = .fault (.unwrittenValue x)) ∧
    (∀ (k : Nat) (yes no : Script),
      runScript (k + 1) (.ifThenElse x yes no) h = .fault (.unwrittenValue x) ∧
      runScript (k + 1) (.whileDo x yes) h = .fault (.unwrittenValue x)) ∧
    ∀ (k : Nat) (body : Script) (g : HostState), runScript k body g = .next h →
      runScript (k + 1) (.repeatUntil body x) g = .fault (.unwrittenValue x)
end

