-- ==== Sys2Proof/Laws/Words.lean ====
section
/-! SUPPORT. Words and their limbs: values, bits, and the two inverse functions between them. -/

namespace Sys2Proof.Machine

theorem fromParts_toNat (h l : Limb) : (fromParts h l).toNat = h.toNat * 2 ^ 64 + l.toNat := by
  have hl := l.isLt
  rw [fromParts, BitVec.toNat_append, Nat.shiftLeft_eq, Nat.mul_comm,
    ← Nat.two_pow_add_eq_or_of_lt hl, Nat.mul_comm]

@[simp] theorem high_toNat (v : Word) : (high v).toNat = v.toNat / 2 ^ 64 := by
  have := v.isLt
  simp only [high, BitVec.extractLsb'_toNat, Nat.shiftRight_eq_div_pow]
  omega

@[simp] theorem low_toNat (v : Word) : (low v).toNat = v.toNat % 2 ^ 64 := by
  simp [low, BitVec.extractLsb'_toNat]

@[simp] theorem fromParts_high_low (v : Word) : fromParts (high v) (low v) = v := by
  apply BitVec.eq_of_toNat_eq
  rw [fromParts_toNat, high_toNat, low_toNat]
  omega

@[simp] theorem high_fromParts (h l : Limb) : high (fromParts h l) = h := by
  apply BitVec.eq_of_toNat_eq
  have := l.isLt
  rw [high_toNat, fromParts_toNat]
  omega

@[simp] theorem low_fromParts (h l : Limb) : low (fromParts h l) = l := by
  apply BitVec.eq_of_toNat_eq
  have := l.isLt
  rw [low_toNat, fromParts_toNat]
  omega

/-- A word is its two limbs (R20: no redundant representations). -/
theorem word_ext {v w : Word} (hh : high v = high w) (hl : low v = low w) : v = w := by
  rw [← fromParts_high_low v, ← fromParts_high_low w, hh, hl]

theorem fromParts_zero : fromParts 0 0 = (0 : Word) := by decide

/-- `fromParts_zero` in the spelling `simp` gives to zero. -/
@[simp] theorem fromParts_ofNat_zero : fromParts (0#64) (0#64) = 0#128 := by decide

theorem fromParts_getLsbD (h l : Limb) (i : Nat) :
    (fromParts h l).getLsbD i = if i < 64 then l.getLsbD i else h.getLsbD (i - 64) := by
  rw [fromParts, BitVec.getLsbD_append]

theorem high_getLsbD (v : Word) (i : Nat) : (high v).getLsbD i = v.getLsbD (i + 64) := by
  rw [high, BitVec.getLsbD_extractLsb', Nat.add_comm]
  by_cases h : i < 64
  · simp [h]
  · simp [h, BitVec.getLsbD_of_ge v (i + 64) (by omega)]

theorem low_getLsbD (v : Word) (i : Nat) : (low v).getLsbD i = (decide (i < 64) && v.getLsbD i) := by
  rw [low, BitVec.getLsbD_extractLsb', Nat.zero_add]

/-- The sign bit splits the words at `2^127` (R21, R24). -/
theorem isNegative_iff (v : Word) : isNegative v = true ↔ 2 ^ 127 ≤ v.toNat := by
  have : isNegative v = v.msb := rfl
  rw [this, BitVec.msb_eq_decide]
  simp

theorem isNegative_iff_toInt (v : Word) : isNegative v = true ↔ v.toInt < 0 := by
  have := v.isLt
  rw [isNegative_iff, BitVec.toInt_eq_toNat_cond]
  split <;> omega

theorem high_msb (v : Word) : (high v).msb = isNegative v := by
  rw [BitVec.msb_eq_getLsbD_last, high_getLsbD]; rfl

/-- The signed value from the limbs (R21). -/
theorem toInt_eq_limbs (v : Word) : v.toInt = (high v).toInt * 2 ^ 64 + (low v).toNat := by
  have := v.isLt
  rw [BitVec.toInt_eq_toNat_cond, BitVec.toInt_eq_toNat_cond, high_toNat, low_toNat]
  split <;> split <;> omega

/-- Limb formulas at once: a word is known when both limbs' values are. -/
theorem eq_ofNat_of_limbs {h l : Limb} {n : Nat} (hh : h.toNat = n / 2 ^ 64 % 2 ^ 64)
    (hl : l.toNat = n % 2 ^ 64) : fromParts h l = BitVec.ofNat 128 n := by
  apply BitVec.eq_of_toNat_eq
  rw [fromParts_toNat, BitVec.toNat_ofNat]
  omega

/-- Widening an unsigned native integer keeps its value (R102). -/
theorem widenUnsigned_toNat {k : Nat} (u : BitVec k) (hk : k ≤ 64) :
    (widenUnsigned u).toNat = u.toNat := by
  have := u.isLt
  have : 2 ^ k ≤ 2 ^ 64 := Nat.pow_le_pow_right (by decide) hk
  rw [widenUnsigned, fromParts_toNat, BitVec.toNat_setWidth, Nat.mod_eq_of_lt (by omega)]
  simp

/-- The fill limb is −1 or 0 as a signed limb (R233). -/
theorem fillLimb_toInt (negative : Bool) : (fillLimb negative).toInt = if negative then -1 else 0 := by
  cases negative <;> decide

/-- Widening a signed native integer keeps its value (R103). -/
theorem widenSigned_toInt {k : Nat} (s : BitVec k) (hk : k ≤ 64) :
    (widenSigned s).toInt = s.toInt := by
  have hm : (s.signExtend 64).msb = s.msb := by
    rw [BitVec.msb_eq_toInt, BitVec.msb_eq_toInt, BitVec.toInt_signExtend_of_le hk]
  rw [← BitVec.toInt_signExtend_of_le hk, toInt_eq_limbs, widenSigned, high_fromParts,
    low_fromParts, ← hm, BitVec.toInt_eq_msb_cond (s.signExtend 64)]
  cases (s.signExtend 64).msb
  · simp [fillLimb_toInt]
  · simp [fillLimb_toInt]
    omega

/-- Narrowing keeps the low bits (R104). -/
theorem narrow_toNat (k : Nat) (v : Word) (hk : k ≤ 64) : (narrow k v).toNat = v.toNat % 2 ^ k := by
  rw [narrow, BitVec.toNat_setWidth, low_toNat]
  exact Nat.mod_mod_of_dvd _ (Nat.pow_dvd_pow 2 hk)

end Sys2Proof.Machine
end

