-- ==== Sys2Proof/Laws/AddSub.lean ====
section
/-! SUPPORT. The limb formulas of the adder, the subtractor, the logic unit and the signed adapter compute
the words of R140 to R143, R150, R151, R230 and R232. -/

namespace Sys2Proof.Machine

/-- ADD is addition modulo `2^128` (R150). -/
theorem addWord_eq (a b : Word) : addWord a b = a + b := by
  apply BitVec.eq_of_toNat_eq
  have ha := a.isLt
  have hb := b.isLt
  simp only [addWord, fromParts_toNat, BitVec.toNat_add, high_toNat, low_toNat, carryOf]
  split <;> simp <;> omega

/-- SUB is subtraction modulo `2^128` (R151). -/
theorem subWord_eq (a b : Word) : subWord a b = a - b := by
  apply BitVec.eq_of_toNat_eq
  have ha := a.isLt
  have hb := b.isLt
  simp only [subWord, fromParts_toNat, BitVec.toNat_sub, high_toNat, low_toNat, borrowOf]
  split <;> simp <;> omega

theorem andWord_eq (a b : Word) : andWord a b = a &&& b := by
  apply word_ext <;> apply BitVec.eq_of_getLsbD_eq <;> intro i hi <;>
    simp only [andWord, high_fromParts, low_fromParts, BitVec.getLsbD_and, high_getLsbD, low_getLsbD,
      hi, decide_true, Bool.true_and]

theorem orWord_eq (a b : Word) : orWord a b = a ||| b := by
  apply word_ext <;> apply BitVec.eq_of_getLsbD_eq <;> intro i hi <;>
    simp only [orWord, high_fromParts, low_fromParts, BitVec.getLsbD_or, high_getLsbD, low_getLsbD,
      hi, decide_true, Bool.true_and]

theorem xorWord_eq (a b : Word) : xorWord a b = a ^^^ b := by
  apply word_ext <;> apply BitVec.eq_of_getLsbD_eq <;> intro i hi <;>
    simp only [xorWord, high_fromParts, low_fromParts, BitVec.getLsbD_xor, high_getLsbD, low_getLsbD,
      hi, decide_true, Bool.true_and]

theorem notWord_eq (a : Word) : notWord a = ~~~a := by
  apply word_ext <;> apply BitVec.eq_of_getLsbD_eq <;> intro i hi
  · simp only [notWord, high_fromParts, BitVec.getLsbD_not, high_getLsbD, hi,
      show i + 64 < 128 by omega]
  · simp only [notWord, low_fromParts, BitVec.getLsbD_not, low_getLsbD, hi,
      show i < 128 by omega, decide_true, Bool.true_and]

/-- Negation by NOT and ADD is the two's complement (R230, R231). -/
theorem neg_eq (v : Word) : neg v = -v := by
  rw [neg, notWord_eq, addWord_eq, BitVec.neg_eq_not_add]
  rfl

/-- `U(abs(v)) = |S(v)|` for every word, the signed minimum included (R232). -/
theorem abs_toNat (v : Word) : (abs v).toNat = v.toInt.natAbs := by
  have hv := v.isLt
  have hn := isNegative_iff v
  unfold abs
  split <;> rename_i h
  · rw [neg_eq, BitVec.toNat_neg, BitVec.toInt_eq_toNat_cond]
    have := hn.mp h
    split <;> omega
  · rw [BitVec.toInt_eq_toNat_cond]
    have : v.toNat < 2 ^ 127 := by
      rw [Nat.lt_iff_le_pred (by decide)]; exact Nat.le_of_not_lt fun c => h (hn.mpr c)
    split <;> omega

end Sys2Proof.Machine
end

