-- ==== Sys2Proof/Laws/Comparator.lean ====
section
/-! SUPPORT. The two limb-wise orders are the orders of the values (R26, R120, R121, R133). -/

namespace Sys2Proof.Machine

/-- Unsigned comparison limb by limb is comparison of the unsigned values (R120). -/
theorem ucmp_eq (a b : Word) : ucmp a b = intOrder a.toNat b.toNat := by
  have ha := a.isLt
  have hb := b.isLt
  simp only [ucmp, intOrder, high_toNat, low_toNat]
  split_ifs <;> first | rfl | omega

/-- Signed comparison limb by limb is comparison of the signed values (R121). -/
theorem scmp_eq (a b : Word) : scmp a b = intOrder a.toInt b.toInt := by
  have ha := (low a).isLt
  have hb := (low b).isLt
  rw [toInt_eq_limbs a, toInt_eq_limbs b]
  simp only [scmp, intOrder]
  split_ifs <;> first | rfl | omega

theorem eqWord_eq (a b : Word) : eqWord a b = decide (a = b) := by
  rw [eqWord, Bool.eq_iff_iff]
  simp only [Bool.and_eq_true, beq_iff_eq, decide_eq_true_eq]
  exact ⟨fun h => word_ext h.1 h.2, by rintro rfl; simp⟩

theorem intOrder_isLt (x y : Int) : (intOrder x y).isLt = decide (x < y) := by
  unfold intOrder; split_ifs <;> simp_all [Order.isLt]

theorem intOrder_isLe (x y : Int) : (intOrder x y).isLe = decide (x ≤ y) := by
  unfold intOrder; split_ifs <;> simp [Order.isLe] <;> omega

theorem intOrder_isGt (x y : Int) : (intOrder x y).isGt = decide (y < x) := by
  unfold intOrder; split_ifs <;> simp [Order.isGt] <;> omega

theorem intOrder_isGe (x y : Int) : (intOrder x y).isGe = decide (y ≤ x) := by
  unfold intOrder; split_ifs <;> simp [Order.isGe] <;> omega

theorem ucmp_less_iff (a b : Word) : ucmp a b = .less ↔ a.toNat < b.toNat := by
  rw [ucmp_eq, intOrder]
  split_ifs <;> simp <;> omega

end Sys2Proof.Machine
end

