-- ==== Sys2Proof/Laws/Decode.lean ====
section
/-! SUPPORT. The decoder: the operation map has no two rows for one word (R73), and the shift commands
decode to their amount (R74). -/

namespace Sys2Proof

/-- No two rows of the operation map can match the same word: somewhere both fix a bit, and differ
(R73, R79). -/
theorem rows_disjoint :
    rows.Pairwise (fun r r' => (r.pat ^^^ r'.pat) &&& r.mask &&& r'.mask ≠ 0) := by decide

theorem decode_shl (n : BitVec 8) : decode (cmdWord 6 0 0 n) = .instr (.shl n.toNat) := by
  revert n; decide +kernel

theorem decode_shr (n : BitVec 8) : decode (cmdWord 7 0 0 n) = .instr (.shr n.toNat) := by
  revert n; decide +kernel

theorem decode_sar (n : BitVec 8) : decode (cmdWord 7 0 1 n) = .instr (.sar n.toNat) := by
  revert n; decide +kernel

/-- An amount that fits the field `N` is the value of the field (R74). -/
theorem shamt_toNat {n : Nat} (h : shamtFits n = true) : (BitVec.ofNat 8 n).toNat = n := by
  have h : n < 2 ^ 8 := of_decide_eq_true h
  rw [BitVec.toNat_ofNat, Nat.mod_eq_of_lt h]

end Sys2Proof
end

