-- ==== Sys2Proof/Laws/Shift.lean ====
section
/-! SUPPORT. The limb formulas of the three shifts compute the words of R170, R174 and R178, for every
amount. -/

namespace Sys2Proof.Machine

/-- `U(shl(v, n)) = U(v)·2^n mod 2^128` (R170). -/
theorem shl_eq (v : Word) (n : Nat) : shl v n = v <<< n := by
  apply BitVec.eq_of_getLsbD_eq
  intro i hi
  unfold shl
  split_ifs with h1 h2 h3
  · rw [fromParts_zero]
    simp [BitVec.getLsbD_shiftLeft, show i < n by omega]
  · simp [h2]
  · rw [fromParts_getLsbD]
    split_ifs with h
    · simp [BitVec.getLsbD_shiftLeft, show i < n by omega]
    · simp only [BitVec.getLsbD_shiftLeft, low_getLsbD, hi, decide_true, Bool.true_and]
      by_cases h4 : i < n
      · simp [h4, show i - 64 < n - 64 by omega]
      · have e : i - 64 - (n - 64) = i - n := by omega
        simp [h4, show ¬ i - 64 < n - 64 by omega, show i - 64 < 64 by omega, e,
          show i - n < 64 by omega]
  · rw [fromParts_getLsbD]
    split_ifs with h
    · by_cases h4 : i < n <;>
        simp [-BitVec.getLsbD_eq_getElem, BitVec.getLsbD_shiftLeft, low_getLsbD, h4, h, hi,
          show i - n < 64 by omega]
    · simp only [BitVec.getLsbD_or, BitVec.getLsbD_shiftLeft, BitVec.getLsbD_ushiftRight,
        high_getLsbD, low_getLsbD, hi, show ¬ i < n by omega]
      by_cases h4 : i - 64 < n
      · have e : 64 - n + (i - 64) = i - n := by omega
        simp [h4, e, show i - n < 64 by omega, show i - 64 < 64 by omega]
      · have e : i - 64 - n + 64 = i - n := by omega
        simp [h4, e, show i - 64 < 64 by omega, show ¬ 64 - n + (i - 64) < 64 by omega]

/-- `U(shr(v, n)) = floor(U(v) / 2^n)` (R174). -/
theorem shr_eq (v : Word) (n : Nat) : shr v n = v >>> n := by
  apply BitVec.eq_of_getLsbD_eq
  intro i hi
  unfold shr
  split_ifs with h1 h2 h3
  · rw [fromParts_zero]
    simp [BitVec.getLsbD_ushiftRight, BitVec.getLsbD_of_ge v (n + i) (by omega)]
  · simp [h2]
  · rw [fromParts_getLsbD]
    split_ifs with h
    · have e : n - 64 + i + 64 = n + i := by omega
      simp [high_getLsbD, e]
    · simp [BitVec.getLsbD_of_ge v (n + i) (by omega)]
  · rw [fromParts_getLsbD]
    split_ifs with h
    · simp only [BitVec.getLsbD_or, BitVec.getLsbD_shiftLeft, BitVec.getLsbD_ushiftRight,
        high_getLsbD, low_getLsbD, h]
      by_cases h4 : i < 64 - n
      · simp [h4, show n + i < 64 by omega]
      · have e : i - (64 - n) + 64 = n + i := by omega
        simp [h4, e, show ¬ n + i < 64 by omega]
    · have e : n + (i - 64) + 64 = n + i := by omega
      simp [high_getLsbD, e]

/-- Every bit of the fill limb is the sign (R178). -/
theorem fillLimb_getLsbD (negative : Bool) (i : Nat) (h : i < 64) :
    (fillLimb negative).getLsbD i = negative := by
  cases negative
  · simp [fillLimb]
  · exact BitVec.getLsbD_allOnes.trans (decide_eq_true h)

theorem sar64_getLsbD (v : Word) (k i : Nat) (h : i < 64) :
    (sar64 (high v) k).getLsbD i = if k + i < 64 then v.getLsbD (k + i + 64) else isNegative v := by
  simp only [sar64, BitVec.getLsbD_sshiftRight, high_msb, high_getLsbD, show ¬ 64 ≤ i by omega,
    decide_false, Bool.not_false, Bool.true_and]

/-- `S(sar(v, n)) = floor(S(v) / 2^n)` (R178). -/
theorem sar_eq (v : Word) (n : Nat) : sar v n = v.sshiftRight n := by
  have hm : v.msb = isNegative v := rfl
  apply BitVec.eq_of_getLsbD_eq
  intro i hi
  have hl : i - 64 < 64 := by omega
  simp only [BitVec.getLsbD_sshiftRight, show ¬ 128 ≤ i by omega, decide_false, Bool.not_false,
    Bool.true_and, hm, sar]
  by_cases h1 : 128 ≤ n
  · simp only [h1, if_true, fromParts_getLsbD, show ¬ n + i < 128 by omega, if_false]
    split_ifs with h
    · exact fillLimb_getLsbD _ _ h
    · exact fillLimb_getLsbD _ _ hl
  by_cases h2 : n = 0
  · simp [h2, hi]
  by_cases h3 : 64 ≤ n
  · simp only [h1, h2, h3, if_true, if_false, fromParts_getLsbD]
    by_cases h : i < 64
    · rw [if_pos h, sar64_getLsbD _ _ _ h, show n - 64 + i + 64 = n + i by omega]
      exact if_congr (by omega) rfl rfl
    · rw [if_neg h, if_neg (by omega), fillLimb_getLsbD _ _ hl]
  · simp only [h1, h2, h3, if_false, fromParts_getLsbD]
    by_cases h : i < 64
    · rw [if_pos h, if_pos (by omega)]
      simp only [BitVec.getLsbD_or, BitVec.getLsbD_shiftLeft, BitVec.getLsbD_ushiftRight,
        high_getLsbD, low_getLsbD, h]
      by_cases h4 : i < 64 - n
      · simp [h4, show n + i < 64 by omega]
      · have e : i - (64 - n) + 64 = n + i := by omega
        simp [h4, e, show ¬ n + i < 64 by omega]
    · rw [if_neg h, sar64_getLsbD _ _ _ hl, show n + (i - 64) + 64 = n + i by omega]
      exact if_congr (by omega) rfl rfl

theorem shl_toNat (v : Word) (n : Nat) : (shl v n).toNat = v.toNat * 2 ^ n % 2 ^ 128 := by
  rw [shl_eq, BitVec.toNat_shiftLeft, Nat.shiftLeft_eq]

theorem shr_toNat (v : Word) (n : Nat) : (shr v n).toNat = v.toNat / 2 ^ n := by
  rw [shr_eq, BitVec.toNat_ushiftRight, Nat.shiftRight_eq_div_pow]

theorem sar_toInt (v : Word) (n : Nat) : (sar v n).toInt = v.toInt / 2 ^ n := by
  rw [sar_eq, BitVec.toInt_sshiftRight, Int.shiftRight_eq_div_pow]
  norm_cast

end Sys2Proof.Machine
end

