-- ==== Sys2Proof/Laws/Divide.lean ====
section
/-! SUPPORT. Binary long division computes the quotient and the remainder (R201), and the signed path the
truncating ones (R204). -/

namespace Sys2Proof.Machine

/-- A shifted divisor that loses no bit. -/
theorem shl_toNat_exact {b : Word} {i : Nat} (h : b.toNat * 2 ^ i < 2 ^ 128) :
    (shl b i).toNat = b.toNat * 2 ^ i := by
  rw [shl_toNat, Nat.mod_eq_of_lt h]

/-- The search of R200 finds the largest shift: from a shift that fits, it ends at one that fits and whose
successor exceeds the dividend. -/
theorem searchShift_spec {a b : Word} (k s : Nat) (hk : s + k = 127)
    (hs : b.toNat * 2 ^ s ≤ a.toNat) (hb : 0 < b.toNat) :
    b.toNat * 2 ^ searchShift a b k s ≤ a.toNat ∧
      a.toNat < b.toNat * 2 ^ (searchShift a b k s + 1) := by
  have ha := a.isLt
  induction k generalizing s with
  | zero =>
    obtain rfl : s = 127 := by omega
    refine ⟨hs, lt_of_lt_of_le ha ?_⟩
    exact Nat.le_mul_of_pos_left _ hb
  | succ k ih =>
    have hexact := shl_toNat_exact (b := b) (i := s) (by omega)
    have hdouble : b.toNat * 2 ^ (s + 1) = b.toNat * 2 ^ s * 2 := by ring
    have hneg := isNegative_iff (shl b s)
    unfold searchShift
    by_cases hc : isNegative (shl b s) = false ∧ ucmp a (shl b (s + 1)) ≠ .less
    · rw [if_pos hc]
      have hsmall : ¬ 2 ^ 127 ≤ b.toNat * 2 ^ s := by
        rw [← hexact, ← hneg, hc.1]; decide
      have hnext := shl_toNat_exact (b := b) (i := s + 1) (by omega)
      have hle := hc.2
      rw [Ne, ucmp_less_iff, hnext] at hle
      exact ih (s + 1) (by omega) (by omega)
    · rw [if_neg hc]
      refine ⟨hs, ?_⟩
      by_contra hge
      refine hc ⟨?_, ?_⟩
      · rw [← Bool.not_eq_true, hneg, hexact]; omega
      · rw [Ne, ucmp_less_iff, shl_toNat_exact (by omega)]; omega

/-- Setting bit `i` of a quotient whose bits `i` and below are clear adds `2^i`. -/
theorem or_twoPow_toNat {q : Word} {i : Nat} (hi : i < 128) (hq : 2 ^ (i + 1) ∣ q.toNat) :
    (q ||| BitVec.twoPow 128 i).toNat = q.toNat + 2 ^ i := by
  obtain ⟨c, hc⟩ := hq
  have hlt : 2 ^ i < 2 ^ (i + 1) := Nat.pow_lt_pow_right (by decide) (by omega)
  have h128 : 2 ^ i < 2 ^ 128 := Nat.pow_lt_pow_right (by decide) hi
  rw [BitVec.toNat_or, BitVec.toNat_twoPow, Nat.mod_eq_of_lt h128, hc,
    Nat.two_pow_add_eq_or_of_lt hlt]

/-- The loop of R200: with a remainder below the next shifted divisor, the indexes `k − 1 … 0` add the
quotient's remaining binary digits and leave the remainder. -/
theorem divideLoop_spec {b : Word} (k : Nat) (q r : Word) (hk : k ≤ 128)
    (hb : 0 < k → b.toNat * 2 ^ (k - 1) < 2 ^ 128) (hr : r.toNat < b.toNat * 2 ^ k)
    (hq : 2 ^ k ∣ q.toNat) :
    (divideLoop b k q r).1.toNat = q.toNat + r.toNat / b.toNat ∧
      (divideLoop b k q r).2.toNat = r.toNat % b.toNat := by
  have hpos : 0 < b.toNat := by
    rcases Nat.eq_zero_or_pos b.toNat with h | h
    · simp [h] at hr
    · exact h
  induction k generalizing q r with
  | zero =>
    simp only [pow_zero, mul_one] at hr
    simp [divideLoop, Nat.div_eq_of_lt hr, Nat.mod_eq_of_lt hr]
  | succ k ih =>
    have hexact := shl_toNat_exact (hb (by omega))
    have hdouble : b.toNat * 2 ^ (k + 1) = b.toNat * 2 ^ k * 2 := by ring
    simp only [Nat.add_sub_cancel] at hexact hb
    have hb' : 0 < k → b.toNat * 2 ^ (k - 1) < 2 ^ 128 := fun h =>
      lt_of_le_of_lt (Nat.mul_le_mul_left _ (Nat.pow_le_pow_right (by decide) (by omega)))
        (hb (by omega))
    unfold divideLoop
    by_cases hc : ucmp r (shl b k) ≠ .less
    · rw [if_pos hc]
      rw [Ne, ucmp_less_iff, hexact] at hc
      have hsub : (subWord r (shl b k)).toNat = r.toNat - b.toNat * 2 ^ k := by
        have := r.isLt
        rw [subWord_eq, BitVec.toNat_sub, hexact]
        omega
      have hor := or_twoPow_toNat (by omega) hq
      have hr' : (subWord r (shl b k)).toNat < b.toNat * 2 ^ k := by omega
      have hq' : 2 ^ k ∣ (q ||| BitVec.twoPow 128 k).toNat := by
        rw [hor]
        exact Nat.dvd_add ((Nat.pow_dvd_pow 2 (by omega)).trans hq) (dvd_refl _)
      obtain ⟨h1, h2⟩ := ih _ _ (by omega) hb' hr' hq'
      have hsplit : r.toNat = (r.toNat - b.toNat * 2 ^ k) + b.toNat * 2 ^ k := by omega
      rw [h1, h2, hor, hsub]
      constructor
      · conv_rhs => rw [hsplit, Nat.add_mul_div_left _ _ hpos]
        omega
      · conv_rhs => rw [hsplit, Nat.add_mul_mod_self_left]
    · rw [if_neg hc]
      rw [not_not, ucmp_less_iff, hexact] at hc
      exact ih _ _ (by omega) hb' hc ((Nat.pow_dvd_pow 2 (by omega)).trans hq)

/-- For a divisor other than zero: floor quotient and remainder (R201), under either reading of the
parameter. -/
theorem udivmod_toNat (choice : ModByZero) {a b : Word} (hb : b.toNat ≠ 0) :
    (udivmod choice a b).1.toNat = a.toNat / b.toNat ∧
      (udivmod choice a b).2.toNat = a.toNat % b.toNat := by
  have hne : b ≠ fromParts 0 0 := by
    rintro rfl
    exact hb (by simp)
  have ha := a.isLt
  unfold udivmod
  rw [if_neg hne]
  by_cases hc : ucmp a b = .less
  · rw [if_pos hc]
    rw [ucmp_less_iff] at hc
    simp [Nat.div_eq_of_lt hc, Nat.mod_eq_of_lt hc]
  · rw [if_neg hc]
    rw [ucmp_less_iff] at hc
    obtain ⟨hle, hlt⟩ := searchShift_spec (a := a) (b := b) 127 0 rfl (by omega) (by omega)
    have hk : searchShift a b 127 0 < 128 := by
      by_contra h
      have h2 : 2 ^ 128 ≤ 2 ^ searchShift a b 127 0 := Nat.pow_le_pow_right (by decide) (by omega)
      have := Nat.le_mul_of_pos_left (2 ^ searchShift a b 127 0) (show 0 < b.toNat by omega)
      omega
    obtain ⟨h1, h2⟩ := divideLoop_spec (b := b) (searchShift a b 127 0 + 1) (fromParts 0 0) a
      (by omega) (fun _ => lt_of_le_of_lt hle ha) hlt (by simp)
    rw [h1, h2]
    simp

/-- A zero divisor gives a zero quotient, and the remainder the parameter chooses (R200; C1; U3). -/
theorem udivmod_zero (choice : ModByZero) {a b : Word} (hb : b.toNat = 0) :
    udivmod choice a b = (0, zeroDivisorRemainder choice a) := by
  obtain rfl : b = 0 := BitVec.eq_of_toNat_eq hb
  simp [udivmod]

theorem udivmod_default (a b : Word) :
    udivmod .zero a b =
      (if b.toNat = 0 then 0 else BitVec.ofNat 128 (a.toNat / b.toNat),
        if b.toNat = 0 then 0 else BitVec.ofNat 128 (a.toNat % b.toNat)) := by
  by_cases hb : b.toNat = 0
  · simp [udivmod_zero .zero hb, hb, zeroDivisorRemainder]
  · obtain ⟨h1, h2⟩ := udivmod_toNat .zero (a := a) hb
    rw [if_neg hb, if_neg hb, ← h1, ← h2, BitVec.ofNat_toNat, BitVec.ofNat_toNat,
      BitVec.setWidth_eq, BitVec.setWidth_eq]

/-- A word's sign and magnitude (R204). -/
theorem toInt_eq_sign_mul (v : Word) :
    v.toInt = if isNegative v then -(v.toInt.natAbs : Int) else (v.toInt.natAbs : Int) := by
  have := isNegative_iff_toInt v
  split <;> rename_i h
  · have := this.mp h; omega
  · have : ¬ v.toInt < 0 := fun c => h (this.mpr c)
    omega

theorem toInt_natAbs_eq_zero_iff (v : Word) : v.toInt.natAbs = 0 ↔ v.toNat = 0 := by
  have := v.isLt
  rw [BitVec.toInt_eq_toNat_cond]
  split <;> omega

/-- The signed path is truncating division on the signed values, wrapped, with zero for a zero divisor
(R204, R205, R206). -/
theorem sdivmod_default (a b : Word) :
    sdivmod .zero a b =
      (if b.toNat = 0 then 0 else BitVec.ofInt 128 (a.toInt.tdiv b.toInt),
        if b.toNat = 0 then 0 else BitVec.ofInt 128 (a.toInt.tmod b.toInt)) := by
  have hz := toInt_natAbs_eq_zero_iff b
  simp only [sdivmod, udivmod_default, abs_toNat, neg_eq]
  by_cases hb : b.toNat = 0
  · have hzero : (-0 : Word) = 0 := by decide
    simp [hb, hz.mpr hb]
  · rw [if_neg hb, if_neg hb, if_neg (fun h => hb (hz.mp h)), if_neg (fun h => hb (hz.mp h))]
    have ea := toInt_eq_sign_mul a
    have eb := toInt_eq_sign_mul b
    generalize a.toInt.natAbs = m at *
    generalize b.toInt.natAbs = n at *
    have hq : BitVec.ofInt 128 ((m : Int) / n) = BitVec.ofNat 128 (m / n) := by
      rw [← Int.natCast_ediv, BitVec.ofInt_natCast]
    have hr : BitVec.ofInt 128 ((m : Int) % n) = BitVec.ofNat 128 (m % n) := by
      rw [← Int.natCast_emod, BitVec.ofInt_natCast]
    rw [ea, eb]
    cases isNegative a <;> cases isNegative b <;>
      simp [Int.neg_tdiv, Int.tdiv_neg, Int.neg_tmod, Int.tmod_neg, BitVec.ofInt_neg,
        Int.tdiv_eq_ediv_of_nonneg, Int.tmod_eq_emod_of_nonneg, hq, hr]

end Sys2Proof.Machine
end

