-- ==== Sys2Proof/Laws/Formatter.lean ====
section
/-! SUPPORT. Repeated division by ten spells the canonical decimal numeral (R250). -/

namespace Sys2Proof.Machine

theorem digitByte_eq {d : Nat} (h : d < 10) : digitByte d = BitVec.ofNat 8 d.digitChar.toNat := by
  interval_cases d <;> decide

theorem decimalChars_small {m : Nat} (h : m < 10) : decimalChars m = [digitByte m] := by
  rw [decimalChars, Nat.toDigits_of_lt_base h, digitByte_eq h]
  rfl

theorem decimalChars_step {m : Nat} (h : 10 ≤ m) :
    decimalChars m = decimalChars (m / 10) ++ [digitByte (m % 10)] := by
  rw [decimalChars, Nat.toDigits_of_base_le (by decide) h, digitByte_eq (Nat.mod_lt _ (by decide)),
    decimalChars, List.map_append]
  rfl

/-- One division by ten. -/
theorem udivmod_ten (m : Word) :
    (udivmod Config.modByZero m tenWord).1.toNat = m.toNat / 10 ∧
      (udivmod Config.modByZero m tenWord).2.toNat = m.toNat % 10 := by
  have h : tenWord.toNat = 10 := by decide
  have := udivmod_toNat Config.modByZero (a := m) (b := tenWord) (by rw [h]; decide)
  rwa [h] at this

/-- The loop of R250 puts the numeral of `m` in front of the digits it already has. -/
theorem digitsLoop_spec (k : Nat) (m : Word) (acc : List Nat) (hm : m.toNat < 10 ^ (k + 1)) :
    (digitsLoop (k + 1) m acc).map digitByte = decimalChars m.toNat ++ acc.map digitByte := by
  induction k generalizing m acc with
  | zero =>
    obtain ⟨h1, h2⟩ := udivmod_ten m
    have hz : (udivmod Config.modByZero m tenWord).1 = fromParts 0 0 := by
      apply BitVec.eq_of_toNat_eq
      rw [h1, fromParts_zero, Nat.div_eq_of_lt (by simpa using hm)]
      rfl
    simp only [digitsLoop, hz, if_true, List.map_cons, h2]
    rw [decimalChars_small (by simpa using hm), Nat.mod_eq_of_lt (by simpa using hm)]
    rfl
  | succ k ih =>
    obtain ⟨h1, h2⟩ := udivmod_ten m
    rw [digitsLoop]
    by_cases hz : (udivmod Config.modByZero m tenWord).1 = fromParts 0 0
    · have hlt : m.toNat < 10 := by
        rw [hz, fromParts_zero] at h1
        have : m.toNat / 10 = 0 := by simpa using h1.symm
        omega
      simp only [hz, if_true, List.map_cons, h2]
      rw [decimalChars_small hlt, Nat.mod_eq_of_lt hlt]
      rfl
    · have hge : 10 ≤ m.toNat := by
        by_contra hlt
        refine hz (BitVec.eq_of_toNat_eq ?_)
        rw [h1, fromParts_zero, Nat.div_eq_of_lt (by omega)]
        rfl
      simp only [hz, if_false]
      rw [ih _ _ (by rw [h1]; rw [pow_succ] at hm; omega), h1, h2, decimalChars_step hge]
      simp

/-- The digits of a word spell its unsigned value (R250, R252). -/
theorem fmtChars_eq (v : Word) : fmtChars v = decimalChars v.toNat := by
  have hv := v.isLt
  rw [fmtChars, digits, digitsLoop_spec 38 v [] (by omega)]
  simp

/-- SFMT writes the magnitude behind a minus sign when the signed value is negative (R253). -/
theorem sfmtChars_eq (v : Word) :
    sfmtChars v = if v.toInt < 0 then Config.minusSign :: decimalChars v.toInt.natAbs
      else decimalChars v.toInt.natAbs := by
  have hn := isNegative_iff_toInt v
  have habs := abs_toNat v
  unfold abs at habs
  unfold sfmtChars
  by_cases h : isNegative v = true
  · rw [if_pos h, if_pos (hn.mp h)]
    rw [if_pos h] at habs
    rw [← habs, ← fmtChars_eq, fmtChars]
  · rw [if_neg h, if_neg (fun c => h (hn.mpr c))]
    rw [if_neg h] at habs
    rw [← habs, ← fmtChars_eq, fmtChars]

end Sys2Proof.Machine
end

