-- ==== Sys2Proof/Laws/Multiply.lean ====
section
/-! SUPPORT. The half-limb arrangement of R190 is exact, and R191 is multiplication modulo `2^128`. -/

namespace Sys2Proof.Machine

theorem upperHalf_toNat (x : Limb) : (upperHalf x).toNat = x.toNat / 2 ^ 32 := by
  have := x.isLt
  simp only [upperHalf, BitVec.extractLsb'_toNat, Nat.shiftRight_eq_div_pow]
  omega

theorem lowerHalf_toNat (x : Limb) : (lowerHalf x).toNat = x.toNat % 2 ^ 32 := by
  simp [lowerHalf, BitVec.extractLsb'_toNat]

/-- The product of two halves is below `2^64 − 2^33 + 2`. -/
theorem halves_bound {x y : Nat} (hx : x < 2 ^ 32) (hy : y < 2 ^ 32) :
    x * y ≤ (2 ^ 32 - 1) * (2 ^ 32 - 1) :=
  Nat.mul_le_mul (by omega) (by omega)

/-- A cross product fits in 64 bits (R190). -/
theorem mulHalves_toNat (x y : HalfLimb) : (mulHalves x y).toNat = x.toNat * y.toNat := by
  have hx := x.isLt
  have hy := y.isLt
  have := halves_bound hx hy
  rw [mulHalves, BitVec.toNat_mul, BitVec.toNat_setWidth, BitVec.toNat_setWidth,
    Nat.mod_eq_of_lt (a := x.toNat) (by omega), Nat.mod_eq_of_lt (a := y.toNat) (by omega)]
  exact Nat.mod_eq_of_lt (by omega)

/-- `mul64x64` is the full product (R190). -/
theorem mul64x64_exact (x y : Limb) :
    (mul64x64 x y).1.toNat * 2 ^ 64 + (mul64x64 x y).2.toNat = x.toNat * y.toNat := by
  have hx := x.isLt
  have hy := y.isLt
  have ex : x.toNat = x.toNat / 2 ^ 32 * 2 ^ 32 + x.toNat % 2 ^ 32 := by omega
  have ey : y.toNat = y.toNat / 2 ^ 32 * 2 ^ 32 + y.toNat % 2 ^ 32 := by omega
  have hp : x.toNat * y.toNat =
      x.toNat / 2 ^ 32 * (y.toNat / 2 ^ 32) * 2 ^ 64 + (x.toNat % 2 ^ 32 * (y.toNat / 2 ^ 32)) * 2 ^ 32 +
        (x.toNat / 2 ^ 32 * (y.toNat % 2 ^ 32)) * 2 ^ 32 + x.toNat % 2 ^ 32 * (y.toNat % 2 ^ 32) := by
    conv_lhs => rw [ex, ey]
    ring
  have b00 := halves_bound (x := x.toNat % 2 ^ 32) (y := y.toNat % 2 ^ 32) (by omega) (by omega)
  have b01 := halves_bound (x := x.toNat % 2 ^ 32) (y := y.toNat / 2 ^ 32) (by omega) (by omega)
  have b10 := halves_bound (x := x.toNat / 2 ^ 32) (y := y.toNat % 2 ^ 32) (by omega) (by omega)
  have b11 := halves_bound (x := x.toNat / 2 ^ 32) (y := y.toNat / 2 ^ 32) (by omega) (by omega)
  have happ : ∀ h l : HalfLimb, (h ++ l : Limb).toNat = h.toNat * 2 ^ 32 + l.toNat := by
    intro h l
    have hl := l.isLt
    rw [BitVec.toNat_append, Nat.shiftLeft_eq, Nat.mul_comm, ← Nat.two_pow_add_eq_or_of_lt hl]
  simp only [mul64x64, happ, BitVec.toNat_add, BitVec.toNat_ushiftRight, BitVec.toNat_setWidth,
    Nat.shiftRight_eq_div_pow, lowerHalf_toNat, upperHalf_toNat, mulHalves_toNat]
  rw [hp]
  generalize x.toNat % 2 ^ 32 * (y.toNat % 2 ^ 32) = p00 at *
  generalize x.toNat % 2 ^ 32 * (y.toNat / 2 ^ 32) = p01 at *
  generalize x.toNat / 2 ^ 32 * (y.toNat % 2 ^ 32) = p10 at *
  generalize x.toNat / 2 ^ 32 * (y.toNat / 2 ^ 32) = p11 at *
  have hlt : p11 * 2 ^ 64 + p01 * 2 ^ 32 + p10 * 2 ^ 32 + p00 < 2 ^ 128 := by
    rw [← hp]
    calc x.toNat * y.toNat < 2 ^ 64 * 2 ^ 64 := Nat.mul_lt_mul'' hx hy
      _ = 2 ^ 128 := by norm_num
  omega

/-- A sum of limb-aligned terms over a low limb, reduced modulo `2^128`. -/
theorem low_half_of_sum (t : Nat) {d : Nat} (hd : d < 2 ^ 64) :
    t % 2 ^ 64 * 2 ^ 64 + d = (t * 2 ^ 64 + d) % 2 ^ 128 := by
  omega

/-- MUL is multiplication modulo `2^128` (R191). -/
theorem mulWord_eq (a b : Word) : mulWord a b = a * b := by
  have hp := mul64x64_exact (low a) (low b)
  have hb := (mul64x64 (low a) (low b)).2.isLt
  have ea : a.toNat = (high a).toNat * 2 ^ 64 + (low a).toNat := by
    rw [← fromParts_toNat, fromParts_high_low]
  have eb : b.toNat = (high b).toNat * 2 ^ 64 + (low b).toNat := by
    rw [← fromParts_toNat, fromParts_high_low]
  have e : a.toNat * b.toNat = (high a).toNat * (high b).toNat * 2 ^ 128 +
      ((high a).toNat * (low b).toNat) * 2 ^ 64 + ((low a).toNat * (high b).toNat) * 2 ^ 64 +
        (low a).toNat * (low b).toNat := by
    rw [ea, eb]
    ring
  apply BitVec.eq_of_toNat_eq
  simp only [mulWord, fromParts_toNat, BitVec.toNat_add, BitVec.toNat_mul, Nat.add_mod_mod]
  rw [e, ← hp]
  generalize (high a).toNat * (high b).toNat = p
  generalize (high a).toNat * (low b).toNat = q
  generalize (low a).toNat * (high b).toNat = r
  generalize (mul64x64 (low a) (low b)).1.toNat = c at *
  generalize (mul64x64 (low a) (low b)).2.toNat = d at *
  rw [Nat.mod_add_mod, show p * 2 ^ 128 + q * 2 ^ 64 + r * 2 ^ 64 + (c * 2 ^ 64 + d) =
    2 ^ 128 * p + ((c + q + r) * 2 ^ 64 + d) by ring, Nat.mul_add_mod]
  exact low_half_of_sum _ hb

end Sys2Proof.Machine
end

