-- ==== Sys2Proof/Laws/PerInstr.lean ====
section
/-! SUPPORT. Statements made of every operation as syntax, one lemma per constructor of `Instr`. -/

namespace Sys2Proof.Laws.RoundTrip

/-- Decoding the command word of a well-formed operation gives the operation back (R73, R79). -/
def Statement (i : Instr) : Prop := i.wellFormed = true → decode (encode i) = .instr i

theorem add : Statement .add := fun _ => by decide
theorem sub : Statement .sub := fun _ => by decide
theorem mul : Statement .mul := fun _ => by decide
theorem div : Statement .div := fun _ => by decide
theorem sdiv : Statement .sdiv := fun _ => by decide
theorem mod : Statement .mod := fun _ => by decide
theorem smod : Statement .smod := fun _ => by decide
theorem cmp : Statement .cmp := fun _ => by decide
theorem scmp : Statement .scmp := fun _ => by decide
theorem eq : Statement .eq := fun _ => by decide
theorem lt : Statement .lt := fun _ => by decide
theorem slt : Statement .slt := fun _ => by decide
theorem le : Statement .le := fun _ => by decide
theorem sle : Statement .sle := fun _ => by decide
theorem gt : Statement .gt := fun _ => by decide
theorem sgt : Statement .sgt := fun _ => by decide
theorem ge : Statement .ge := fun _ => by decide
theorem sge : Statement .sge := fun _ => by decide

theorem shl (n : Nat) : Statement (.shl n) := fun h => by
  rw [encode, decode_shl, shamt_toNat h]

theorem shr (n : Nat) : Statement (.shr n) := fun h => by
  rw [encode, decode_shr, shamt_toNat h]

theorem sar (n : Nat) : Statement (.sar n) := fun h => by
  rw [encode, decode_sar, shamt_toNat h]

theorem and : Statement .and := fun _ => by decide
theorem or : Statement .or := fun _ => by decide
theorem xor : Statement .xor := fun _ => by decide
theorem not : Statement .not := fun _ => by decide
theorem fmt : Statement .fmt := fun _ => by decide
theorem sfmt : Statement .sfmt := fun _ => by decide

end Sys2Proof.Laws.RoundTrip
end

