-- ==== Sys2Proof/Laws/Script.lean ====
section
/-! SUPPORT. The host's storage and the sequencing of outcomes. -/

namespace Sys2Proof.Machine

@[simp] theorem andThen_next {α β : Type} (x : α) (f : α → Host.Outcome β Fault Refusal) :
    andThen (.next x) f = f x := rfl

@[simp] theorem andThen_fault {α β : Type} (e : Fault) (f : α → Host.Outcome β Fault Refusal) :
    andThen (.fault e) f = .fault e := rfl

@[simp] theorem andThen_refused {α β : Type} (e : Refusal) (f : α → Host.Outcome β Fault Refusal) :
    andThen (.refused e) f = .refused e := rfl

/-- A composite goes on only where its first part did. -/
theorem andThen_eq_next {α β : Type} {o : Host.Outcome α Fault Refusal}
    {f : α → Host.Outcome β Fault Refusal} {y : β} (h : andThen o f = .next y) :
    ∃ x, o = .next x ∧ f x = .next y := by
  cases o with
  | next x => exact ⟨x, rfl, h⟩
  | fault e => cases h
  | refused e => cases h

/-- Reading a name after writing it gives what was written. -/
@[simp] theorem Store.read_write_self (st : Store) (x : String) (v : Value) :
    (st.write x v).read x = some v := by
  induction st with
  | nil => simp [Store.write, Store.read]
  | cons p rest ih =>
    obtain ⟨y, w⟩ := p
    by_cases h : y = x <;> simp [Store.write, Store.read, h, ih]

/-- Writing a name leaves every other name alone. -/
@[simp] theorem Store.read_write_ne (st : Store) {x z : String} (v : Value) (h : z ≠ x) :
    (st.write x v).read z = st.read z := by
  induction st with
  | nil => simp [Store.write, Store.read, h.symm]
  | cons p rest ih =>
    obtain ⟨y, w⟩ := p
    by_cases hy : y = x
    · simp [Store.write, Store.read, hy, h.symm]
    · simp [Store.write, Store.read, hy, ih]

/-- A write adds no second entry for a name. -/
theorem Store.write_keeps_nodup (st : Store) (x : String) (v : Value)
    (h : (st.map Prod.fst).Nodup) : ((st.write x v).map Prod.fst).Nodup := by
  have mem : ∀ (l : Store) (z : String), z ≠ x → z ∈ (l.write x v).map Prod.fst → z ∈ l.map Prod.fst := by
    intro l z hz
    induction l with
    | nil => simp [Store.write, hz]
    | cons p rest ih =>
      obtain ⟨y, w⟩ := p
      by_cases hy : y = x
      · simp only [Store.write, hy, if_true, List.map_cons, List.mem_cons]
        exact id
      · simp only [Store.write, hy, if_false, List.map_cons, List.mem_cons]
        exact Or.imp_right ih
  induction st with
  | nil => simp [Store.write]
  | cons p rest ih =>
    obtain ⟨y, w⟩ := p
    simp only [List.map_cons, List.nodup_cons] at h
    by_cases hy : y = x
    · subst hy
      simpa [Store.write] using h
    · simp only [Store.write, hy, if_false, List.map_cons, List.nodup_cons]
      exact ⟨fun c => h.1 (mem rest y hy c), ih h.2⟩

end Sys2Proof.Machine
end

