-- ==== Sys2Proof/Laws/State.lean ====
section
/-! SUPPORT. What each field of State is after each update, and what the operations on State can do. -/

namespace Sys2Proof.Machine

@[simp] theorem State.reset_requests : State.reset.requests = [] := rfl
@[simp] theorem State.reset_response : State.reset.response = none := rfl
@[simp] theorem State.reset_history : State.reset.history = [] := rfl

section
variable (s : State) (r : Request) (rsp : Response) (rest rs : List Request)

@[simp] theorem State.answered_requests : (s.answered r rsp rest).requests = rest := rfl
@[simp] theorem State.answered_response : (s.answered r rsp rest).response = some rsp := rfl
@[simp] theorem State.answered_history :
    (s.answered r rsp rest).history = s.history ++ [⟨r, rsp⟩] := rfl

@[simp] theorem State.plan_requests : (s.plan rs).requests = s.requests ++ rs := rfl
@[simp] theorem State.plan_response : (s.plan rs).response = s.response := rfl
@[simp] theorem State.plan_history : (s.plan rs).history = s.history := rfl

@[simp] theorem assertReset_eq : assertReset s = State.reset := rfl

@[simp] theorem State.withFetchWord_response (nbits w : Nat) :
    (s.withFetchWord nbits w).response = s.response := by
  unfold State.withFetchWord; split <;> rfl

@[simp] theorem State.withFetchWord_history (nbits w : Nat) :
    (s.withFetchWord nbits w).history = s.history := by
  unfold State.withFetchWord; split <;> rfl

end

variable {s s' : State} {r : Request} {rest : List Request} {f : Word → Word → Response}

/-- A transaction on a standing request answers it, whatever `f` is. -/
@[simp] theorem transact_cons (h : s.requests = r :: rest) :
    transact f s = .next (s.answered r (f r.a r.b) rest) := by
  simp [transact, h]

@[simp] theorem transact_nil (h : s.requests = []) : transact f s = .refused .noRequest := by
  simp [transact, h]

/-- Everything a transaction can do. -/
theorem transact_cases (f : Word → Word → Response) (s : State) :
    (s.requests = [] ∧ transact f s = .refused .noRequest) ∨
      ∃ r rest, s.requests = r :: rest ∧ transact f s = .next (s.answered r (f r.a r.b) rest) := by
  cases h : s.requests with
  | nil => exact .inl ⟨rfl, transact_nil h⟩
  | cons r rest => exact .inr ⟨r, rest, rfl, transact_cons h⟩

/-- Everything the host's making a request can do. -/
theorem present_cases (s : State) (r : Request) :
    (s.requests = [] ∧ present s r = .next { s with requests := [r] }) ∨
      (s.requests ≠ [] ∧ present s r = .refused .busy) := by
  by_cases h : s.requests = [] <;> simp [present, h]

/-- Everything a step can do: nothing on the port, an operation, or a reserved command word. -/
theorem step_cases (s : State) :
    (s.requests = [] ∧ step s = .refused .noRequest) ∨
      ∃ r rest, s.requests = r :: rest ∧
        ((∃ i, decode r.cmd = .instr i ∧ step s = exec i s) ∨
          ∃ why, decode r.cmd = .reserved why ∧ step s = .refused (.reservedCommand r.cmd why)) := by
  cases h : s.requests with
  | nil => exact .inl ⟨rfl, by simp [step, State.port, h]⟩
  | cons r rest =>
    refine .inr ⟨r, rest, rfl, ?_⟩
    cases hd : decode r.cmd with
    | instr i => exact .inl ⟨i, rfl, by simp [step, State.port, h, hd]⟩
    | reserved why => exact .inr ⟨why, rfl, by simp [step, State.port, h, hd]⟩

end Sys2Proof.Machine
end

