-- ==== Sys2Proof/Tests/Slice0.lean ====
section
/-! SUPPORT. The model's own tests: refusals of ill-formed terms, words written out from the spec's encoding,
results taken from the spec's test vectors, and one witness per statement that has hypotheses. -/

open Sys2Proof Sys2Proof.Machine

namespace Sys2Proof.Tests

-- One theorem after another: a thread for each does not fit the memory the check allows.
set_option Elab.async false

/-! ### Reading an outcome -/

/-- The value an outcome goes on with. -/
def goesOn {α : Type} (o : Host.Outcome α Fault Refusal) : Option α :=
  match o with
  | .next x => some x
  | .fault _ => none
  | .refused _ => none

/-- The reason an outcome stops with. -/
def stopsWith {α : Type} (o : Host.Outcome α Fault Refusal) : Option (Fault ⊕ Refusal) :=
  match o with
  | .next _ => none
  | .fault e => some (.inl e)
  | .refused e => some (.inr e)

theorem next_of_goesOn {α : Type} {o : Host.Outcome α Fault Refusal} {x : α} (h : goesOn o = some x) :
    o = .next x := by
  cases o with
  | next y => exact congrArg _ (Option.some.inj h)
  | fault e => cases h
  | refused e => cases h

/-! ### Ill-formed terms are refused -/

theorem test_shl_256_is_ill_formed : (Instr.shl 256).wellFormed = false := by decide
theorem test_shr_256_is_ill_formed : (Instr.shr 256).wellFormed = false := by decide
theorem test_sar_256_is_ill_formed : (Instr.sar 256).wellFormed = false := by decide
theorem test_amount_255_is_well_formed : (Instr.shl 255).wellFormed = true := by decide

/-! ### Decoding: words written out field by field, `UNIT FUNC S N` (R70 to R74) -/

theorem test_decode_add : decode 0b0001_000_0_00000000 = .instr .add := by decide
theorem test_decode_sub : decode 0b0010_000_0_00000000 = .instr .sub := by decide
theorem test_decode_mul : decode 0b0011_000_0_00000000 = .instr .mul := by decide
theorem test_decode_div : decode 0b0100_000_0_00000000 = .instr .div := by decide
theorem test_decode_sdiv : decode 0b0100_000_1_00000000 = .instr .sdiv := by decide
theorem test_decode_mod : decode 0b0100_001_0_00000000 = .instr .mod := by decide
theorem test_decode_smod : decode 0b0100_001_1_00000000 = .instr .smod := by decide
theorem test_decode_cmp : decode 0b0101_000_0_00000000 = .instr .cmp := by decide
theorem test_decode_scmp : decode 0b0101_000_1_00000000 = .instr .scmp := by decide
theorem test_decode_eq : decode 0b0101_001_0_00000000 = .instr .eq := by decide
theorem test_decode_lt : decode 0b0101_010_0_00000000 = .instr .lt := by decide
theorem test_decode_slt : decode 0b0101_010_1_00000000 = .instr .slt := by decide
theorem test_decode_le : decode 0b0101_011_0_00000000 = .instr .le := by decide
theorem test_decode_sle : decode 0b0101_011_1_00000000 = .instr .sle := by decide
theorem test_decode_gt : decode 0b0101_100_0_00000000 = .instr .gt := by decide
theorem test_decode_sgt : decode 0b0101_100_1_00000000 = .instr .sgt := by decide
theorem test_decode_ge : decode 0b0101_101_0_00000000 = .instr .ge := by decide
theorem test_decode_sge : decode 0b0101_101_1_00000000 = .instr .sge := by decide
theorem test_decode_shl : decode 0b0110_000_0_01000000 = .instr (.shl 64) := by decide
theorem test_decode_shr : decode 0b0111_000_0_01111111 = .instr (.shr 127) := by decide
theorem test_decode_sar : decode 0b0111_000_1_10000001 = .instr (.sar 129) := by decide
theorem test_decode_and : decode 0b1000_000_0_00000000 = .instr .and := by decide
theorem test_decode_or : decode 0b1000_001_0_00000000 = .instr .or := by decide
theorem test_decode_xor : decode 0b1000_010_0_00000000 = .instr .xor := by decide
theorem test_decode_not : decode 0b1000_011_0_00000000 = .instr .not := by decide
theorem test_decode_fmt : decode 0b1001_000_0_00000000 = .instr .fmt := by decide
theorem test_decode_sfmt : decode 0b1001_000_1_00000000 = .instr .sfmt := by decide

/-- Section 2.9 of 95_test_vectors.md: a word of each reserved class. -/
theorem test_decode_reserved :
    decode 0x0000 = .reserved .unit ∧ decode 0xA000 = .reserved .unit ∧ decode 0x4400 = .reserved .func ∧
    decode 0x5C00 = .reserved .func ∧ decode 0x5300 = .reserved .sign ∧ decode 0x1100 = .reserved .sign ∧
    decode 0x1001 = .reserved .amount ∧ decode 0x8601 = .reserved .amount := by decide

/-- R76: a reserved word is not executed, whatever its operands. -/
theorem test_reserved_is_refused : stopsWith (step (State.reset.plan [⟨0x1001, fromParts 0 1, fromParts 0 2⟩])) =
    some (.inr (.reservedCommand 0x1001 .amount)) := by decide +kernel

theorem test_table_word : decodeTableWord 16 0x71FF = some (.sar 255) := by decide
theorem test_short_table_word : decodeTableWord 8 0x00FF = none := by decide

/-! ### Results, from 95_test_vectors.md and 96_test_vectors_arith.md -/

/-- One request from reset and its response. -/
def ask (w : Cmd) (a b : Word) : Option Response :=
  match step (State.reset.plan [⟨w, a, b⟩]) with
  | .next s => s.response
  | .fault _ => none
  | .refused _ => none

/-- The word operands of the vectors. -/
def wordX : Word := fromParts 0x0123456789ABCDEF 0xFEDCBA9876543210
def wordY : Word := fromParts 0x0FEDCBA987654321 0x123456789ABCDEF0
def wordZ : Word := fromParts 0x8123456789ABCDEF 0xFEDCBA9876543211
def word128 (n : Nat) : Word := BitVec.ofNat 128 n
def minusSeven : Word := fromParts 0xFFFFFFFFFFFFFFFF 0xFFFFFFFFFFFFFFF9

theorem test_add_carry : ask 0x1000 (fromParts 0 1) (fromParts 0 0xFFFFFFFFFFFFFFFF) = some (.word (fromParts 1 0)) := by decide +kernel
theorem test_add_wraps : ask 0x1000 wordX wordY = some (.word (fromParts 0x1111111111111111 0x1111111111111100)) := by decide +kernel
theorem test_sub_borrow : ask 0x2000 (fromParts 5 0) (fromParts 5 1) = some (.word (fromParts 0xFFFFFFFFFFFFFFFF 0xFFFFFFFFFFFFFFFF)) := by decide +kernel
theorem test_sub : ask 0x2000 wordX wordY = some (.word (fromParts 0xF13579BE02468ACE 0xECA8641FDB975320)) := by decide +kernel
theorem test_mul_all_carries : ask 0x3000 (fromParts 0 0xFFFFFFFFFFFFFFFF) (fromParts 0 0xFFFFFFFFFFFFFFFF) = some (.word (fromParts 0xFFFFFFFFFFFFFFFE 0x0000000000000001)) := by decide +kernel
theorem test_mul : ask 0x3000 wordX wordY = some (.word (fromParts 0xAA6C876160EC6A42 0x236D88FE5618CF00)) := by decide +kernel
theorem test_div : ask 0x4000 wordY (fromParts 0 0x0123456789ABCDEF) = some (.word (fromParts 0x000000000000000E 0x0000000000000D3F)) := by decide +kernel
theorem test_div_by_zero : ask 0x4000 (fromParts 1 0) 0 = some (.word (fromParts 0 0)) := by decide +kernel
theorem test_mod : ask 0x4200 wordY (fromParts 0 0x0123456789ABCDEF) = some (.word (fromParts 0 0x0000000000000E1F)) := by decide +kernel
theorem test_mod_by_zero : ask 0x4200 u128Max 0 = some (.word (fromParts 0 0)) := by decide +kernel
theorem test_sdiv : ask 0x4100 minusSeven (fromParts 0 2) = some (.word (fromParts 0xFFFFFFFFFFFFFFFF 0xFFFFFFFFFFFFFFFD)) := by decide +kernel
theorem test_sdiv_overflow : ask 0x4100 i128Min u128Max = some (.word i128Min) := by decide +kernel
theorem test_smod : ask 0x4300 minusSeven (fromParts 0 2) = some (.word (fromParts 0xFFFFFFFFFFFFFFFF 0xFFFFFFFFFFFFFFFF)) := by decide +kernel
theorem test_smod_of_seven : ask 0x4300 (fromParts 0 7) (fromParts 0xFFFFFFFFFFFFFFFF 0xFFFFFFFFFFFFFFFE) = some (.word (fromParts 0 1)) := by decide +kernel
theorem test_cmp : ask 0x5000 u128Max 0 = some (.order .greater) := by decide +kernel
theorem test_cmp_high_limb : ask 0x5000 (fromParts 0 0xFFFFFFFFFFFFFFFF) (fromParts 1 0) = some (.order .less) := by decide +kernel
theorem test_scmp : ask 0x5100 u128Max 0 = some (.order .less) := by decide +kernel
theorem test_scmp_low_limb : ask 0x5100 (fromParts 0xFFFFFFFFFFFFFFFF 0) (fromParts 0xFFFFFFFFFFFFFFFF 1) = some (.order .less) := by decide +kernel
theorem test_eq : ask 0x5200 (fromParts 1 0) (fromParts 0 1) = some (.truth false) := by decide +kernel
theorem test_eq_self : ask 0x5200 i128Min i128Min = some (.truth true) := by decide +kernel
theorem test_lt : ask 0x5400 i128Min i128Max = some (.truth false) := by decide +kernel
theorem test_lt_self : ask 0x5400 i128Min i128Min = some (.truth false) := by decide +kernel
theorem test_le : ask 0x5600 i128Min i128Max = some (.truth false) := by decide +kernel
theorem test_le_self : ask 0x5600 i128Min i128Min = some (.truth true) := by decide +kernel
theorem test_gt : ask 0x5800 i128Min i128Max = some (.truth true) := by decide +kernel
theorem test_gt_self : ask 0x5800 i128Min i128Min = some (.truth false) := by decide +kernel
theorem test_ge : ask 0x5A00 i128Min i128Max = some (.truth true) := by decide +kernel
theorem test_ge_self : ask 0x5A00 i128Min i128Min = some (.truth true) := by decide +kernel
theorem test_slt : ask 0x5500 i128Min i128Max = some (.truth true) := by decide +kernel
theorem test_slt_self : ask 0x5500 i128Min i128Min = some (.truth false) := by decide +kernel
theorem test_sle : ask 0x5700 i128Min i128Max = some (.truth true) := by decide +kernel
theorem test_sle_self : ask 0x5700 i128Min i128Min = some (.truth true) := by decide +kernel
theorem test_sgt : ask 0x5900 i128Min i128Max = some (.truth false) := by decide +kernel
theorem test_sgt_self : ask 0x5900 i128Min i128Min = some (.truth false) := by decide +kernel
theorem test_sge : ask 0x5B00 i128Min i128Max = some (.truth false) := by decide +kernel
theorem test_sge_self : ask 0x5B00 i128Min i128Min = some (.truth true) := by decide +kernel
theorem test_shl_63 : ask 0x603F wordZ 0 = some (.word (fromParts 0xFF6E5D4C3B2A1908 0x8000000000000000)) := by decide +kernel
theorem test_shl_128 : ask 0x6080 wordZ 0 = some (.word (fromParts 0 0)) := by decide +kernel
theorem test_shr_65 : ask 0x7041 wordZ 0 = some (.word (fromParts 0 0x4091A2B3C4D5E6F7)) := by decide +kernel
theorem test_shr_4 : ask 0x7004 wordZ 0 = some (.word (fromParts 0x08123456789ABCDE 0xFFEDCBA987654321)) := by decide +kernel
theorem test_sar_64 : ask 0x7140 wordZ 0 = some (.word (fromParts 0xFFFFFFFFFFFFFFFF 0x8123456789ABCDEF)) := by decide +kernel
theorem test_sar_1 : ask 0x7101 wordZ 0 = some (.word (fromParts 0xC091A2B3C4D5E6F7 0xFF6E5D4C3B2A1908)) := by decide +kernel
theorem test_and : ask 0x8000 (fromParts 0xFF00FF00FF00FF00 0x0F0F0F0F0F0F0F0F) (fromParts 0x0FF00FF00FF00FF0 0xFFFF0000FFFF0000) =
    some (.word (fromParts 0x0F000F000F000F00 0x0F0F00000F0F0000)) := by decide +kernel
theorem test_or : ask 0x8200 (fromParts 0xFF00FF00FF00FF00 0x0F0F0F0F0F0F0F0F) (fromParts 0x0FF00FF00FF00FF0 0xFFFF0000FFFF0000) =
    some (.word (fromParts 0xFFF0FFF0FFF0FFF0 0xFFFF0F0FFFFF0F0F)) := by decide +kernel
theorem test_xor : ask 0x8400 (fromParts 0xFF00FF00FF00FF00 0x0F0F0F0F0F0F0F0F) (fromParts 0x0FF00FF00FF00FF0 0xFFFF0000FFFF0000) =
    some (.word (fromParts 0xF0F0F0F0F0F0F0F0 0xF0F00F0FF0F00F0F)) := by decide +kernel
theorem test_not : ask 0x8600 (fromParts 0 0xA) u128Max = some (.word (fromParts 0xFFFFFFFFFFFFFFFF 0xFFFFFFFFFFFFFFF5)) := by decide +kernel
theorem test_fmt_zero : ask 0x9000 0 u128Max = some (.text [0x30]) := by decide +kernel
theorem test_fmt : ask 0x9000 (fromParts 1 0) 0 = some (.text [0x31, 0x38, 0x34, 0x34, 0x36, 0x37, 0x34,
    0x34, 0x30, 0x37, 0x33, 0x37, 0x30, 0x39, 0x35, 0x35, 0x31, 0x36, 0x31, 0x36]) := by decide +kernel
theorem test_sfmt : ask 0x9100 (fromParts 0xFFFFFFFFFFFFFFFF 0xFFFFFFFFFFFFFFD6) 0 = some (.text [0x2D, 0x34, 0x32]) := by decide +kernel
theorem test_sfmt_min_fills_the_port : (ask 0x9100 i128Min 0).bind portLen = some 40 := by decide +kernel

/-! ### The host's side -/

/-- A host with an idle core. -/
def host (st : Store) : HostState := ⟨st, State.reset⟩

/-- R81: assembler text, with a literal and a comment. -/
theorem test_parse_add : parseLine "ADD d, a, #-5 ; remark" =
    some (.line (.two .add "d" (.name "a") (.literal (.decimal (-5))))) := by decide +kernel

theorem test_parse_shift : parseLine "SAR d, a, #64" =
    some (.line (.shift .sar "d" (.name "a") 64)) := by decide +kernel

/-- The first three lines of script 5 of 95_test_vectors.md: the words sent and the field extracted. -/
theorem test_script :
    let start := host [("x", .word wordZ)]
    ((parseLines ["SHL t, x, #56", "SHR f, t, #116 ; zero-extended", "AND h, f, #0xFFF"]).bind
      fun c => (goesOn (runScript 9 c start)).map fun g => (wordsSent start g, g.store.read "h")) =
    some ([0x6038, 0x7074, 0x8000], some (.word (fromParts 0 0xEFF))) := by decide +kernel

/-- Script 3 of 95_test_vectors.md, the host's string action. -/
theorem test_host_string : (goesOn (wireValue [("r", .word (fromParts 0 7)), ("s", .text [0x31])]
    (.digitBefore (.name "r") "s"))) = some (.text [0x37, 0x31]) := by decide +kernel

/-- R81: a negative literal is sign-extended, a limb literal gives high and low. -/
theorem test_literals : (Literal.decimal (-5)).toWord = some (fromParts 0xFFFFFFFFFFFFFFFF 0xFFFFFFFFFFFFFFFB) ∧
    (Literal.limbs 1 5).toWord = some (word128 18446744073709551621) := by decide +kernel

/-- R230: `NEG` of the signed minimum, whatever stands on the ignored port. -/
theorem test_neg_of_the_minimum : neg i128Min = i128Min := by decide +kernel

/-- Section 2.1 of 95_test_vectors.md. -/
theorem test_widen_and_narrow : widenSigned (0x80 : BitVec 8) = fromParts 0xFFFFFFFFFFFFFFFF 0xFFFFFFFFFFFFFF80 ∧
    widenUnsigned (0xFF : BitVec 8) = fromParts 0 0xFF ∧
    narrow 8 (fromParts 0 0x180) = 0x80 := by decide +kernel

/-- U1: −1 is not truncated to 255. -/
theorem test_negative_shift_is_refused :
    stopsWith (runLine (.shift .shl "d" (.name "x") (-1)) (host [])) =
      some (.inr (.negativeShift (-1))) := by decide +kernel

/-- A word that the host never wrote (U13). -/
theorem test_unwritten_read_faults :
    stopsWith (runLine (.two .add "d" (.name "x") (.name "x")) (host [])) =
      some (.inl (.unwrittenValue "x")) := by decide +kernel

/-- The host's placement of an instruction: the first step after reset runs it. -/
theorem test_fetch_word : (goesOn (step (State.reset.withFetchWord 16 0x8600))).bind State.response =
    some (.word u128Max) := by decide +kernel

/-! ### Witnesses: for each statement with hypotheses, a state and operands that meet them together -/

/-- One request of the host's, made at reset. -/
def asked (w : Cmd) (a b : Word) : State := State.reset.plan [⟨w, a, b⟩]

theorem witness_DecodeOfEncodeIsTheInstruction :
    (Instr.sar 255).wellFormed = true ∧ (Instr.shl 0).wellFormed = true ∧ Instr.sfmt.wellFormed = true := by decide +kernel

theorem witness_EncodeOfDecodeIsTheWord :
    decode 0x71FF = .instr (.sar 255) ∧ decode 0x9100 = .instr .sfmt := by decide +kernel

theorem witness_ReservedWordsAreTheListedClassesAndAreRefused :
    (asked 0x6100 0 0).requests = [⟨0x6100, 0, 0⟩] ∧ decode 0x6100 = .reserved .sign := by decide +kernel

theorem witness_LegalityIsDecidedByTheCommandWordAlone :
    (asked 0x4000 u128Max 0).requests = [⟨0x4000, u128Max, 0⟩] ∧
    (asked 0x4000 0 u128Max).requests = [⟨0x4000, 0, u128Max⟩] := by decide +kernel

theorem witness_StepRunsTheDecodedInstruction :
    (asked 0x60FF u128Max 0).requests = [⟨0x60FF, u128Max, 0⟩] ∧ decode 0x60FF = .instr (.shl 255) := by decide +kernel

theorem witness_NothingHappensWithoutARequest :
    State.reset.requests = [] := by decide +kernel

theorem witness_EveryOperationRespondsWithItsKindOnly :
    (asked 0x5000 0 u128Max).requests = [⟨0x5000, 0, u128Max⟩] := by decide +kernel

theorem witness_NoOperationFaultsOrFailsToRespond :
    (asked 0x4100 i128Min u128Max).requests = [⟨0x4100, i128Min, u128Max⟩] := by decide +kernel

theorem witness_ResponseDependsOnItsOwnRequestAlone :
    (asked 0x1000 u128Max 1).requests = [⟨0x1000, u128Max, 1⟩] ∧
    ((asked 0x1000 u128Max 1).plan [⟨0x0000, 0, 0⟩]).requests = [⟨0x1000, u128Max, 1⟩, ⟨0x0000, 0, 0⟩] ∧
    step (asked 0x1000 u128Max 1) =
      .next ((asked 0x1000 u128Max 1).answered ⟨0x1000, u128Max, 1⟩ (.word 0) []) := ⟨rfl, rfl, next_of_goesOn (by decide +kernel)⟩

theorem witness_OperandBIsIgnoredByFormatsUAndS :
    formatOf .not ≠ .r ∧ formatOf (.sar 128) ≠ .r ∧
    (asked 0x8600 wordX 0).requests = [⟨0x8600, wordX, 0⟩] ∧
    (asked 0x8600 wordX u128Max).requests = [⟨0x8600, wordX, u128Max⟩] := by decide +kernel

theorem witness_AStepIsOneWholeTransaction :
    step (asked 0x8600 0 0) = .next ((asked 0x8600 0 0).answered ⟨0x8600, 0, 0⟩ (.word u128Max) []) := next_of_goesOn (by decide +kernel)

/-- A state in the middle of a stream: one transaction recorded, one request to come. -/
def midStream : State := ((asked 0x8600 0 0).answered ⟨0x8600, 0, 0⟩ (.word u128Max) []).plan [⟨0x9100, u128Max, 0⟩]

theorem midStream_inv : midStream.Inv := ⟨by decide +kernel, by decide +kernel⟩

theorem witness_EveryStepKeepsTheInvariant :
    midStream.Inv ∧
    step midStream = .next (midStream.answered ⟨0x9100, u128Max, 0⟩ (.text [0x2D, 0x31]) []) := ⟨midStream_inv, next_of_goesOn (by decide +kernel)⟩

theorem witness_HostActionsAndResetKeepTheInvariant :
    State.reset.Inv ∧ present State.reset ⟨0x1000, 1, 1⟩ = .next (asked 0x1000 1 1) := ⟨⟨by decide, by decide⟩, next_of_goesOn (by decide +kernel)⟩

theorem witness_ALegalStreamIsAnsweredInOrder :
    ((asked 0x1000 1 1).plan [⟨0x71FF, i128Min, 0⟩]).safe = true := by decide +kernel

theorem witness_TransactionsCommute :
    ((asked 0x1000 1 1).plan [⟨0x71FF, i128Min, 0⟩]).safe = true ∧
    ((asked 0x1000 1 1).plan [⟨0x71FF, i128Min, 0⟩]).requests.Perm
      ((asked 0x71FF i128Min 0).plan [⟨0x1000, 1, 1⟩]).requests ∧
    ((asked 0x1000 1 1).plan [⟨0x71FF, i128Min, 0⟩]).history =
      ((asked 0x71FF i128Min 0).plan [⟨0x1000, 1, 1⟩]).history := by decide +kernel

theorem witness_NoSecondRequestBeforeTheResponse :
    (asked 0x1000 1 1).requests ≠ [] ∧ State.reset.requests = [] := by decide +kernel

theorem witness_ResetLeavesNothingBehind :
    midStream.requests = [⟨0x9100, u128Max, 0⟩] ∧
    step midStream = .next (midStream.answered ⟨0x9100, u128Max, 0⟩ (.text [0x2D, 0x31]) []) := ⟨rfl, next_of_goesOn (by decide +kernel)⟩

theorem witness_LimbBackendMeetsTheContract :
    (asked 0x3000 u128Max u128Max).requests = [⟨0x3000, u128Max, u128Max⟩] := by decide +kernel

theorem witness_AddWrapsModuloTwoToThe128 :
    (asked 0x1000 u128Max (fromParts 0 1)).requests = [⟨0x1000, u128Max, (fromParts 0 1)⟩] := by decide +kernel

theorem witness_SubWrapsModuloTwoToThe128 :
    (asked 0x2000 0 (fromParts 0 1)).requests = [⟨0x2000, 0, (fromParts 0 1)⟩] := by decide +kernel

theorem witness_AdditionLaws :
    responseOf .add u128Max 1 = some (.word 0) := by decide +kernel

/-- The largest halves; the four products and `mid` are those of 96_test_vectors_arith.md section 2.5. -/
theorem witness_HalfLimbProductIsExact :
    let x : Limb := 0xFFFFFFFFFFFFFFFF
    let p := x.toNat % 2 ^ 32 * (x.toNat / 2 ^ 32)
    p = 0xFFFFFFFE00000001 ∧ p = x.toNat % 2 ^ 32 * (x.toNat % 2 ^ 32) ∧
      p = x.toNat / 2 ^ 32 * (x.toNat / 2 ^ 32) ∧
      p / 2 ^ 32 + p % 2 ^ 32 + p % 2 ^ 32 = 0x100000000 := by decide +kernel

theorem witness_MulIsTheLowHalfOfTheProduct :
    (asked 0x3000 u128Max (fromParts 0 2)).requests = [⟨0x3000, u128Max, (fromParts 0 2)⟩] := by decide +kernel

theorem witness_LongDivisionIsFloorDivision :
    (1 : Word) ≠ 0 ∧ (0 : Word) = 0 := by decide +kernel

theorem witness_DivIsUnsignedFloorDivision :
    (asked 0x4000 u128Max 0).requests = [⟨0x4000, u128Max, 0⟩] ∧ (⟨0x4000, u128Max, 0⟩ : Request).b = 0 ∧
    (asked 0x4000 u128Max 1).requests = [⟨0x4000, u128Max, 1⟩] ∧ (⟨0x4000, u128Max, 1⟩ : Request).b ≠ 0 := by decide +kernel

theorem witness_ModIsUnsignedRemainder :
    (asked 0x4200 u128Max 0).requests = [⟨0x4200, u128Max, 0⟩] ∧ (⟨0x4200, u128Max, 0⟩ : Request).b = 0 ∧
    (asked 0x4200 u128Max 1).requests = [⟨0x4200, u128Max, 1⟩] ∧ (⟨0x4200, u128Max, 1⟩ : Request).b ≠ 0 := by decide +kernel

theorem witness_SmodIsTruncatingRemainder :
    (asked 0x4300 u128Max 0).requests = [⟨0x4300, u128Max, 0⟩] ∧ (⟨0x4300, u128Max, 0⟩ : Request).b = 0 ∧
    (asked 0x4300 u128Max 1).requests = [⟨0x4300, u128Max, 1⟩] ∧ (⟨0x4300, u128Max, 1⟩ : Request).b ≠ 0 := by decide +kernel

theorem witness_SignedDivisionTruncatesTowardZero :
    (1 : Word) ≠ 0 ∧ ¬(i128Min = i128Min ∧ (1 : Word) = u128Max) := by decide +kernel

/-- One state per clause: a zero divisor, the overflowing quotient, and beside it neither. -/
theorem witness_SdivIsTruncatingDivision :
    (asked 0x4100 i128Min 0).requests = [⟨0x4100, i128Min, 0⟩] ∧
    (asked 0x4100 i128Min u128Max).requests = [⟨0x4100, i128Min, u128Max⟩] ∧
    (asked 0x4100 i128Max u128Max).requests = [⟨0x4100, i128Max, u128Max⟩] ∧ u128Max ≠ 0 ∧
    ¬(i128Max = i128Min ∧ u128Max = u128Max) := by decide +kernel

theorem witness_DividendReadingOfModByZero :
    (1 : Word) ≠ 0 := by decide +kernel

theorem witness_ThreeWayComparisons :
    (asked 0x5000 u128Max 0).requests = [⟨0x5000, u128Max, 0⟩] ∧
    (asked 0x5100 u128Max 0).requests = [⟨0x5100, u128Max, 0⟩] := by decide +kernel

theorem witness_EqIsEqualityOfPatterns :
    (asked 0x5200 u128Max u128Max).requests = [⟨0x5200, u128Max, u128Max⟩] ∧
    responseOf .eq u128Max u128Max = some (.truth true) := by decide +kernel

theorem witness_UnsignedPredicates :
    (asked 0x5400 i128Max i128Min).requests = [⟨0x5400, i128Max, i128Min⟩] := by decide +kernel

theorem witness_SignedPredicates :
    (asked 0x5500 i128Min i128Max).requests = [⟨0x5500, i128Min, i128Max⟩] := by decide +kernel

theorem witness_BothOrdersAreTotal :
    ucmp 0 1 = .less ∧ ucmp 1 u128Max = .less ∧ scmp i128Min u128Max = .less ∧ scmp u128Max 0 = .less := by decide +kernel

theorem witness_LogicIsBitwise :
    (asked 0x8600 wordX 0).requests = [⟨0x8600, wordX, 0⟩] ∧ 0 < 128 ∧ 127 < 128 := by decide +kernel

/-- The clauses of the statement at the boundaries of their ranges: 0, 1, 63, 64, 127, 128. -/
theorem witness_ShiftFunctionsForEveryAmount :
    wordX.getLsbD 127 = false ∧ 128 ≤ 128 ∧ 0 = 0 ∧ (64 ≤ 64 ∧ 64 ≤ 127) ∧ (64 ≤ 127 ∧ 127 ≤ 127) ∧
    (1 ≤ 1 ∧ 1 ≤ 63) ∧ (1 ≤ 63 ∧ 63 ≤ 63) := by decide +kernel

theorem witness_ShlShiftsLeft :
    (asked 0x6080 wordZ 0).requests = [⟨0x6080, wordZ, 0⟩] ∧ 127 < 128 := by decide +kernel

theorem witness_ShrShiftsRightFillingZeros :
    (asked 0x7080 wordZ 0).requests = [⟨0x7080, wordZ, 0⟩] ∧ 127 < 128 := by decide +kernel

theorem witness_SarShiftsRightFillingTheSign :
    (asked 0x717F wordZ 0).requests = [⟨0x717F, wordZ, 0⟩] ∧ 127 < 128 := by decide +kernel

theorem witness_FmtWritesTheCanonicalNumeral :
    (asked 0x9000 u128Max 0).requests = [⟨0x9000, u128Max, 0⟩] := by decide +kernel

theorem witness_SfmtWritesTheSignedNumeral :
    (asked 0x9100 i128Min 0).requests = [⟨0x9100, i128Min, 0⟩] := by decide +kernel

theorem witness_ResponsePortCoding :
    Instr.fmt ∈ [Instr.fmt, Instr.sfmt] ∧ (responseOf .fmt 0 0).bind portLen = some 1 ∧
    (responseOf .sfmt i128Min 0).bind portLen = some 40 ∧ 1 ≤ (⟨1, by decide⟩ : Fin Config.strMax).val ∧
    (⟨0, by decide⟩ : Fin Config.strMax).val < 1 ∧ (⟨39, by decide⟩ : Fin Config.strMax).val < 40 := by decide +kernel

theorem witness_NegationWrapsAndBothFormsAgree :
    i128Max ≠ i128Min ∧ u128Max ≠ i128Min := by decide +kernel

theorem witness_AbsIsTheMagnitude :
    i128Max ≠ i128Min ∧ (host [("x", .word i128Min)]).store.read "x" = some (.word i128Min) ∧
    (host [("x", .word i128Min)]).core.requests = [] := by decide +kernel

theorem witness_LimbRoundTrip :
    (0 : Nat) < 64 ∧ 63 < 64 ∧ 63 < 128 ∧ 64 < 128 ∧ 127 < 128 := by decide +kernel

theorem witness_WideningAndNarrowing :
    8 ∈ [8, 16, 32, 64] ∧ 64 ∈ [8, 16, 32, 64] := by decide +kernel

theorem witness_NegPseudoInstructionRuns :
    (host [("x", .word wordX), ("y", .word wordY)]).store.read "x" = some (.word wordX) ∧
    (host [("x", .word wordX), ("y", .word wordY)]).core.requests = [] := by decide +kernel

theorem witness_IsZeroAndNePseudoInstructionsRun :
    (host [("x", .word wordX), ("y", .word wordY)]).store.read "x" = some (.word wordX) ∧
    (host [("x", .word wordX), ("y", .word wordY)]).store.read "y" = some (.word wordY) ∧
    (host [("x", .word wordX), ("y", .word wordY)]).core.requests = [] := by decide +kernel

/-- One store per part: a run, a name with a word and no limb, two names with limbs and no word. -/
theorem witness_WiringCostsNoTransaction :
    runScript 1 (.wire "d" (.copy (.literal (.decimal 5)))) (host []) =
      .next (host [("d", .word (fromParts 0 5))]) ∧
    (host [("x", .word wordX)]).store.read "x" = some (.word wordX) ∧
    (host [("y", .native 64 1), ("z", .native 64 5)]).store.read "y" = some (.native 64 (1 : Limb).toNat) ∧
    (host [("y", .native 64 1), ("z", .native 64 5)]).store.read "z" = some (.native 64 (5 : Limb).toNat) := ⟨next_of_goesOn (by decide +kernel), by decide +kernel⟩

theorem witness_CompoundFormsReplaceTheReceiver :
    Instr.sub ∈ [Instr.add, .sub, .mul, .div, .sdiv, .mod, .smod, .and, .or, .xor] ∧
    (host [("x", .word wordX), ("y", .word wordY)]).store.read "x" = some (.word wordX) ∧
    (host [("x", .word wordX), ("y", .word wordY)]).store.read "y" = some (.word wordY) ∧
    (host [("x", .word wordX), ("y", .word wordY)]).core.requests = [] ∧ 0 ≤ 255 ∧ 255 ≤ 255 := by decide +kernel

theorem witness_EveryScriptKeepsTheInvariant :
    State.reset.Inv ∧ State.reset.requests = [] ∧ (([] : Store).map Prod.fst).Nodup ∧
    ∃ g, runScript 3 (.seq (.line (.two .add "d" (.literal (.decimal 1)) (.literal (.hex 2)))) .skip) (host []) =
      .next g ∧ g.store.read "d" = some (.word (fromParts 0 3)) := ⟨⟨by decide, by decide⟩, rfl, by decide, _, rfl, by decide +kernel⟩

/-- The three ranges at the amounts where they meet: -1, 0, 255, 256. -/
theorem witness_ShiftAmountIsNeverTruncated :
    (-1 : Int) < 0 ∧ (255 : Int) < 256 ∧ (0 : Int) ≤ 0 ∧ (0 : Int) ≤ 255 ∧ (255 : Int) ≤ 255 := by decide

/-- The amounts at both ends of their range, and a store with a readable limb beside the unwritten name. -/
theorem witness_UnwrittenHostValueFaults :
    (host [("y", .native 64 1)]).store.read "x" = none ∧ formatOf .smod = .r ∧ formatOf .not = .u ∧
    (0 : Int) ≤ 0 ∧ (0 : Int) ≤ 255 ∧ (255 : Int) ≤ 255 ∧
    readOperand (host [("y", .native 64 1)]).store (.literal (.decimal 1)) = .next (fromParts 0 1) ∧
    readNative (host [("y", .native 64 1)]).store "y" = .next (64, 1) ∧
    wireValue (host [("y", .native 64 1)]).store (.widenSigned "x") = .fault (.unwrittenValue "x") ∧
    runScript 1 .skip (host [("y", .native 64 1)]) = .next (host [("y", .native 64 1)]) := ⟨by decide +kernel, rfl, rfl, by decide, by decide, by decide, next_of_goesOn (by decide +kernel),
    next_of_goesOn (by decide +kernel), rfl, rfl⟩

end Sys2Proof.Tests
end

/-! SUPPORT. The limb formulas in the contract's own terms, one equation per unit, and what `exec` and
`step` do, said once: every operation is the transaction that answers with the contract's response. -/

namespace Sys2Proof.Machine

/-! ### Each unit's result is the contract's -/

theorem addWord_eq_ofNat (a b : Word) : addWord a b = BitVec.ofNat 128 (a.toNat + b.toNat) := by
  rw [addWord_eq, BitVec.add_def]

theorem subWord_eq_ofInt (a b : Word) : subWord a b = BitVec.ofInt 128 ((a.toNat : Int) - b.toNat) := by
  apply BitVec.eq_of_toNat_eq
  rw [subWord_eq, BitVec.toNat_sub, BitVec.toNat_ofInt]
  have := b.isLt
  omega

theorem mulWord_eq_ofNat (a b : Word) : mulWord a b = BitVec.ofNat 128 (a.toNat * b.toNat) := by
  apply BitVec.eq_of_toNat_eq
  rw [mulWord_eq, BitVec.toNat_mul, BitVec.toNat_ofNat]

theorem shl_eq_ofNat (v : Word) (n : Nat) : shl v n = BitVec.ofNat 128 (v.toNat * 2 ^ n) := by
  apply BitVec.eq_of_toNat_eq
  rw [shl_toNat, BitVec.toNat_ofNat]

theorem shr_eq_ofNat (v : Word) (n : Nat) : shr v n = BitVec.ofNat 128 (v.toNat / 2 ^ n) := by
  rw [← shr_toNat, BitVec.ofNat_toNat, BitVec.setWidth_eq]

theorem sar_eq_ofInt (v : Word) (n : Nat) : sar v n = BitVec.ofInt 128 (v.toInt / 2 ^ n) := by
  rw [← sar_toInt, BitVec.ofInt_toInt]

theorem ucmp_isLt (a b : Word) : (ucmp a b).isLt = decide (a.toNat < b.toNat) := by
  simp [ucmp_eq, intOrder_isLt]

theorem ucmp_isLe (a b : Word) : (ucmp a b).isLe = decide (a.toNat ≤ b.toNat) := by
  simp [ucmp_eq, intOrder_isLe]

theorem ucmp_isGt (a b : Word) : (ucmp a b).isGt = decide (b.toNat < a.toNat) := by
  simp [ucmp_eq, intOrder_isGt]

theorem ucmp_isGe (a b : Word) : (ucmp a b).isGe = decide (b.toNat ≤ a.toNat) := by
  simp [ucmp_eq, intOrder_isGe]

theorem scmp_isLt (a b : Word) : (scmp a b).isLt = decide (a.toInt < b.toInt) := by
  rw [scmp_eq, intOrder_isLt]

theorem scmp_isLe (a b : Word) : (scmp a b).isLe = decide (a.toInt ≤ b.toInt) := by
  rw [scmp_eq, intOrder_isLe]

theorem scmp_isGt (a b : Word) : (scmp a b).isGt = decide (b.toInt < a.toInt) := by
  rw [scmp_eq, intOrder_isGt]

theorem scmp_isGe (a b : Word) : (scmp a b).isGe = decide (b.toInt ≤ a.toInt) := by
  rw [scmp_eq, intOrder_isGe]

/-! ### What `exec` and `step` do -/

theorem transact_congr {f g : Word → Word → Response} {s : State} (h : ∀ a b, f a b = g a b) :
    transact f s = transact g s := by
  rw [funext₂ h]

/-- R7: each arm of `exec` is one transaction, and its limb formula is the contract's result. -/
theorem exec_eq_transact_contract (i : Instr) (s : State) : exec i s = transact (contract i) s := by
  cases i with
  | add => exact transact_congr fun a b => congrArg Response.word (addWord_eq_ofNat a b)
  | sub => exact transact_congr fun a b => congrArg Response.word (subWord_eq_ofInt a b)
  | mul => exact transact_congr fun a b => congrArg Response.word (mulWord_eq_ofNat a b)
  | div => exact transact_congr fun a b => congrArg (Response.word ·.1) (udivmod_default a b)
  | sdiv => exact transact_congr fun a b => congrArg (Response.word ·.1) (sdivmod_default a b)
  | mod => exact transact_congr fun a b => congrArg (Response.word ·.2) (udivmod_default a b)
  | smod => exact transact_congr fun a b => congrArg (Response.word ·.2) (sdivmod_default a b)
  | cmp => exact transact_congr fun a b => congrArg Response.order (ucmp_eq a b)
  | scmp => exact transact_congr fun a b => congrArg Response.order (scmp_eq a b)
  | eq => exact transact_congr fun a b => congrArg Response.truth (eqWord_eq a b)
  | lt => exact transact_congr fun a b => congrArg Response.truth (ucmp_isLt a b)
  | slt => exact transact_congr fun a b => congrArg Response.truth (scmp_isLt a b)
  | le => exact transact_congr fun a b => congrArg Response.truth (ucmp_isLe a b)
  | sle => exact transact_congr fun a b => congrArg Response.truth (scmp_isLe a b)
  | gt => exact transact_congr fun a b => congrArg Response.truth (ucmp_isGt a b)
  | sgt => exact transact_congr fun a b => congrArg Response.truth (scmp_isGt a b)
  | ge => exact transact_congr fun a b => congrArg Response.truth (ucmp_isGe a b)
  | sge => exact transact_congr fun a b => congrArg Response.truth (scmp_isGe a b)
  | shl n => exact transact_congr fun a _ => congrArg Response.word (shl_eq_ofNat a n)
  | shr n => exact transact_congr fun a _ => congrArg Response.word (shr_eq_ofNat a n)
  | sar n => exact transact_congr fun a _ => congrArg Response.word (sar_eq_ofInt a n)
  | and => exact transact_congr fun a b => congrArg Response.word (andWord_eq a b)
  | or => exact transact_congr fun a b => congrArg Response.word (orWord_eq a b)
  | xor => exact transact_congr fun a b => congrArg Response.word (xorWord_eq a b)
  | not => exact transact_congr fun a _ => congrArg Response.word (notWord_eq a)
  | fmt => exact transact_congr fun a _ => congrArg Response.text (fmtChars_eq a)
  | sfmt => exact transact_congr fun a _ => congrArg Response.text (sfmtChars_eq a)

section
variable {s t : State} {r : Request} {rest : List Request} {i : Instr} {rsp : Response}

/-- Any operation on a standing request. -/
theorem exec_cons (i : Instr) (h : s.requests = r :: rest) :
    exec i s = .next (s.answered r (contract i r.a r.b) rest) := by
  rw [exec_eq_transact_contract, transact_cons h]

theorem exec_nil (i : Instr) (h : s.requests = []) : exec i s = .refused .noRequest := by
  rw [exec_eq_transact_contract, transact_nil h]

theorem step_nil (h : s.requests = []) : step s = .refused .noRequest := by
  simp [step, State.port, h]

theorem step_of_decode (h : s.requests = r :: rest) (hd : decode r.cmd = .instr i) :
    step s = exec i s := by
  simp [step, State.port, h, hd]

theorem Request.answer_of_decode (hd : decode r.cmd = .instr i) :
    r.answer = some (contract i r.a r.b) := by
  simp [Request.answer, hd]

theorem Request.decode_of_legal (h : r.legal = true) : ∃ i, decode r.cmd = .instr i := by
  unfold Request.legal at h
  cases hd : decode r.cmd with
  | instr i => exact ⟨i, rfl⟩
  | reserved why => simp [hd] at h

/-- A legal request is answered as the contract says. -/
theorem step_of_legal (h : s.requests = r :: rest) (hr : r.legal = true) :
    ∃ rsp, r.answer = some rsp ∧ step s = .next (s.answered r rsp rest) := by
  obtain ⟨i, hd⟩ := Request.decode_of_legal hr
  exact ⟨_, Request.answer_of_decode hd, (step_of_decode h hd).trans (exec_cons i h)⟩

/-- The only way a step goes on: the head request is answered, as the contract says. -/
theorem step_next_cases (h : step s = .next t) :
    ∃ r rsp rest, s.requests = r :: rest ∧ r.answer = some rsp ∧ t = s.answered r rsp rest := by
  obtain ⟨-, hstep⟩ | ⟨r, rest, hs, ⟨i, hd, hstep⟩ | ⟨why, -, hstep⟩⟩ := step_cases s
  · simp [hstep] at h
  · rw [hstep, exec_cons i hs] at h
    exact ⟨r, _, rest, hs, Request.answer_of_decode hd, (Host.Outcome.next.inj h).symm⟩
  · simp [hstep] at h

/-- Recording a contract's answer keeps the invariant. -/
theorem State.Inv.answered (hs : s.Inv) (ha : r.answer = some rsp) (rest : List Request) :
    (s.answered r rsp rest).Inv where
  historySound u hu := by
    rw [State.answered_history, List.mem_append, List.mem_singleton] at hu
    obtain hold | rfl := hu
    · exact hs.historySound u hold
    · exact decide_eq_true ha
  portShowsLast := by simp

theorem core_run_of_step (k : Nat) (h : step s = .next t) : core.run (k + 1) s = core.run k t := by
  have hcore : core.step s = .next t := h
  simp only [Host.Core.run, hcore]

/-- A legal stream runs to its end, by induction on the requests. -/
theorem core_run_of_legal (rs : List Request) (s : State) (hs : s.requests = rs)
    (hlegal : ∀ r ∈ rs, r.legal = true) :
    ∃ (t : State) (rsps : List Response), core.run rs.length s = .next t ∧ t.requests = [] ∧
      rsps.map some = rs.map Request.answer ∧
      t.history = s.history ++ List.zipWith Transaction.mk rs rsps := by
  induction rs generalizing s with
  | nil => exact ⟨s, [], rfl, hs, rfl, by simp⟩
  | cons r rest ih =>
    obtain ⟨hr, hrest⟩ := List.forall_mem_cons.mp hlegal
    obtain ⟨rsp, ha, hstep⟩ := step_of_legal hs hr
    obtain ⟨t, rsps, hrun, hreq, hrsps, hhist⟩ := ih (s.answered r rsp rest) rfl hrest
    refine ⟨t, rsp :: rsps, ?_, hreq, ?_, ?_⟩
    · rw [List.length_cons, core_run_of_step _ hstep, hrun]
    · simp [ha, hrsps]
    · simp [hhist]

end

/-! ### The obligations -/

/-- Settles O21: each unit's limb formula is its contract. -/
theorem limbBackendMeetsTheContract : Obligations.LimbBackendMeetsTheContract :=
  fun i _ _ _ hs => exec_cons i hs

/-- Settles O15: a step that goes on records the contract's answer, which keeps the invariant. -/
theorem everyStepKeepsTheInvariant : Obligations.EveryStepKeepsTheInvariant := by
  intro s t hinv hstep
  obtain ⟨r, rsp, rest, -, ha, rfl⟩ := step_next_cases hstep
  exact hinv.answered ha rest

/-- Settles O17, by induction on the stream of requests. -/
theorem aLegalStreamIsAnsweredInOrder : Obligations.ALegalStreamIsAnsweredInOrder :=
  fun s hsafe => core_run_of_legal s.requests s rfl (List.all_eq_true.mp hsafe)

/-- Settles O13: the only way a step goes on is that the head request is answered. -/
theorem aStepIsOneWholeTransaction : Obligations.AStepIsOneWholeTransaction := by
  intro s t hstep
  obtain ⟨r, rsp, rest, hs, -, rfl⟩ := step_next_cases hstep
  exact ⟨r, rsp, hs, rfl, rfl⟩

/-- Settles O7: `step` on a request whose word decodes is its `exec` arm. -/
theorem stepRunsTheDecodedInstruction : Obligations.StepRunsTheDecodedInstruction :=
  fun _ _ _ _ hs hd => step_of_decode hs hd

/-- Settles O8: with no request, `step` and every transaction are refused. -/
theorem nothingHappensWithoutARequest : Obligations.NothingHappensWithoutARequest :=
  fun _ hs => ⟨step_nil hs, fun i => exec_nil i hs⟩

end Sys2Proof.Machine

/-! SUPPORT. What a host script can do to the host it runs on, said as an invariant of the host's state and
carried through the sequencing of outcomes, and the obligation that rests on it. -/

namespace Sys2Proof.Machine

/-! ### What holds wherever an outcome goes on -/

/-- Where the outcome goes on, it goes on with a value that meets `P`; of a stop nothing is said. -/
def Ensures {α : Type} (o : Host.Outcome α Fault Refusal) (P : α → Prop) : Prop :=
  ∀ x, o = .next x → P x

section
variable {α β : Type} {P : α → Prop} {Q : β → Prop}
  {o : Host.Outcome α Fault Refusal} {f : α → Host.Outcome β Fault Refusal}

theorem Ensures.next {x : α} (hx : P x) : Ensures (.next x) P := by
  rintro _ ⟨⟩
  exact hx

theorem Ensures.refused (e : Refusal) : Ensures (.refused e) P := nofun

/-- Sequencing: what the first part ensures is what the second part may assume. -/
theorem Ensures.bind (ho : Ensures o P) (hf : ∀ x, P x → Ensures (f x) Q) : Ensures (andThen o f) Q := by
  intro y h
  obtain ⟨x, hx, hy⟩ := andThen_eq_next h
  exact hf x (ho x hx) y hy

/-- Sequencing after a part that only reads, so that nothing need be known of its value. -/
theorem Ensures.bind_any (hf : ∀ x, Ensures (f x) Q) : Ensures (andThen o f) Q :=
  Ensures.bind (P := fun _ => True) (fun _ _ => trivial) fun x _ => hf x

end

/-! ### The invariant of a host between two of its transactions -/

/-- The invariant speaks of the record and the response port only. -/
theorem State.Inv.congr {s t : State} (hs : s.Inv) (hh : t.history = s.history)
    (hr : t.response = s.response) : t.Inv where
  historySound := hh ▸ hs.historySound
  portShowsLast := by rw [hh, hr, hs.portShowsLast]

/-- Making a request of an idle core. -/
theorem present_of_idle {s : State} (h : s.requests = []) (r : Request) :
    present s r = .next { s with requests := [r] } := if_pos h

/-- An idle core that meets the invariant and whose record begins with `past`. -/
structure State.Settled (past : List Transaction) (s : State) : Prop where
  inv : s.Inv
  idle : s.requests = []
  recorded : past <+: s.history

/-- A host with a settled core and a store with no name twice. -/
structure HostState.Settled (past : List Transaction) (h : HostState) : Prop where
  core : h.core.Settled past
  nodup : (h.store.map Prod.fst).Nodup

section
variable {past : List Transaction} {s : State} {h : HostState}

theorem HostState.Settled.write (hh : h.Settled past) (hs : s.Settled past) (dst : String) (v : Value) :
    HostState.Settled past ⟨h.store.write dst v, s⟩ :=
  ⟨hs, h.store.write_keeps_nodup dst v hh.nodup⟩

/-- A step on the one request just made of a settled core is one whole transaction. -/
theorem step_settled (hs : s.Settled past) (r : Request) :
    Ensures (step { s with requests := [r] }) (State.Settled past) := by
  intro t hstep
  obtain ⟨r', rsp, rest, hreq, ha, rfl⟩ := step_next_cases hstep
  obtain ⟨rfl, rfl⟩ := List.cons.inj hreq
  exact ⟨(hs.inv.congr rfl rfl).answered ha [], rfl, hs.recorded.trans (List.prefix_append _ _)⟩

/-- A transaction leaves the core settled, whichever command and operands the host sends. -/
theorem send_settled (hs : s.Settled past) (i : Instr) (a b : Word) :
    Ensures (send i a b s) fun p => p.2.Settled past := by
  unfold send
  split
  · rw [present_of_idle hs.idle, andThen_next]
    refine (step_settled hs _).bind fun t ht => ?_
    cases t.response with
    | none => exact .refused _
    | some rsp => exact .next ht
  · exact .refused _

/-- A transaction whose response is bound to a name leaves the host settled. -/
theorem send_bind_settled (hh : h.Settled past) (hs : s.Settled past) (i : Instr) (a b : Word) (dst : String) :
    Ensures (andThen (send i a b s) fun p => .next (bindResponse h.store dst p))
      (HostState.Settled past) :=
  (send_settled hs i a b).bind fun p hp => .next (hh.write hp dst p.1.toValue)

theorem sendForWord_ensures {o : Host.Outcome (Response × State) Fault Refusal} {Q : HostState → Prop}
    {f : Word → State → Host.Outcome HostState Fault Refusal} (dst : String)
    (ho : Ensures o fun p => p.2.Settled past) (hf : ∀ w t, t.Settled past → Ensures (f w t) Q) :
    Ensures (sendForWord o dst f) Q := by
  refine ho.bind fun ⟨rsp, t⟩ ht => ?_
  cases rsp with
  | word w => exact hf w t ht
  | _ => exact .refused _

theorem sendForTruth_ensures {o : Host.Outcome (Response × State) Fault Refusal} {Q : HostState → Prop}
    {f : Bool → State → Host.Outcome HostState Fault Refusal} (dst : String)
    (ho : Ensures o fun p => p.2.Settled past) (hf : ∀ b t, t.Settled past → Ensures (f b t) Q) :
    Ensures (sendForTruth o dst f) Q := by
  refine ho.bind fun ⟨rsp, t⟩ ht => ?_
  cases rsp with
  | truth b => exact hf b t ht
  | _ => exact .refused _

/-! ### Lines, pseudo-instructions and scripts keep it -/

theorem runLine_settled (l : Line) (hh : h.Settled past) :
    Ensures (runLine l h) (HostState.Settled past) := by
  refine Ensures.bind_any fun i => ?_
  cases l with
  | two j dst a b => exact .bind_any fun x => .bind_any fun y => send_bind_settled hh hh.core i x y dst
  | one j dst a => exact .bind_any fun x => send_bind_settled hh hh.core i x _ dst
  | shift op dst a n => exact .bind_any fun x => send_bind_settled hh hh.core i x _ dst

theorem sendNeg_settled (v : Word) (dst : String) (hh : h.Settled past) :
    Ensures (sendNeg v dst h) (HostState.Settled past) :=
  sendForWord_ensures dst (send_settled hh.core .not v _) fun w _ ht => send_bind_settled hh ht .add w _ dst

theorem runPseudo_settled (p : Pseudo) (hh : h.Settled past) :
    Ensures (runPseudo p h) (HostState.Settled past) := by
  cases p with
  | neg dst a => exact .bind_any fun v => sendNeg_settled v dst hh
  | negBySub dst a => exact .bind_any fun v => send_bind_settled hh hh.core .sub _ v dst
  | abs dst a =>
    refine .bind_any fun v => sendForTruth_ensures dst (send_settled hh.core .slt v _) fun b t ht => ?_
    cases b with
    | true => exact sendNeg_settled v dst ⟨ht, hh.nodup⟩
    | false => exact .next (hh.write ht dst (.word v))
  | isZero dst a => exact .bind_any fun v => send_bind_settled hh hh.core .eq v _ dst
  | ne dst a b =>
    exact .bind_any fun v => .bind_any fun w =>
      sendForTruth_ensures dst (send_settled hh.core .eq v w) fun b t ht => .next (hh.write ht dst (.truth !b))

/-- Every script keeps the host settled, by induction on the host's steps. -/
theorem runScript_settled (k : Nat) (c : Script) (hh : h.Settled past) :
    Ensures (runScript k c h) (HostState.Settled past) := by
  induction k generalizing c h with
  | zero => exact .refused _
  | succ k ih =>
    cases c with
    | skip => exact .next hh
    | line l => exact runLine_settled l hh
    | pseudo p => exact runPseudo_settled p hh
    | wire dst e => exact .bind_any fun v => .next (hh.write hh.core dst v)
    | seq first second => exact (ih first hh).bind fun _ hg => ih second hg
    | ifThenElse p yes no =>
      refine .bind_any fun t => ?_
      cases t with
      | true => exact ih yes hh
      | false => exact ih no hh
    | whileDo p body =>
      refine .bind_any fun t => ?_
      cases t with
      | true => exact (ih body hh).bind fun _ hg => ih (.whileDo p body) hg
      | false => exact .next hh
    | repeatUntil body p =>
      refine (ih body hh).bind fun g hg => .bind_any fun t => ?_
      cases t with
      | true => exact .next hg
      | false => exact ih (.repeatUntil body p) hg

end

/-! ### The obligation -/

/-- Settles O58: the host settled with its own record as the past stays settled. -/
theorem everyScriptKeepsTheInvariant : Obligations.EveryScriptKeepsTheInvariant := by
  intro k c h g hinv hidle hnodup hrun
  have hh : h.Settled h.core.history := ⟨⟨hinv, hidle, List.prefix_rfl⟩, hnodup⟩
  obtain ⟨⟨ginv, gidle, hpast⟩, gnodup⟩ := runScript_settled k c hh g hrun
  exact ⟨ginv, gidle, gnodup, hpast⟩

end Sys2Proof.Machine

/-! SUPPORT. The contract's responses: their kinds, the operand they do not look at, and the characters of
the formatter; after them the obligations on responses, the host's actions, reset and limbs. -/

namespace Sys2Proof.Machine

/-! ### A field of the port has a value for its own kind only -/

section
variable (rsp : Response)

theorem portR_isSome_iff : (portR rsp).isSome = true ↔ responseKind rsp = .word := by
  cases rsp <;> simp [portR, responseKind]

theorem portC_isSome_iff : (portC rsp).isSome = true ↔ responseKind rsp = .order := by
  cases rsp <;> simp [portC, responseKind]

theorem portT_isSome_iff : (portT rsp).isSome = true ↔ responseKind rsp = .truth := by
  cases rsp <;> simp [portT, responseKind]

theorem portLen_isSome_iff : (portLen rsp).isSome = true ↔ responseKind rsp = .text := by
  cases rsp <;> simp [portLen, responseKind]

theorem portStr_isSome_iff (k : Fin Config.strMax) :
    (portStr rsp k).isSome = true ↔ responseKind rsp = .text := by
  cases rsp <;> simp [portStr, responseKind]

end

/-! ### What the contract's response depends on -/

theorem responseKind_contract (i : Instr) (a b : Word) : responseKind (contract i a b) = kindOf i := by
  cases i <;> rfl

/-- R71: the operations of format U and S do not look at `B`. -/
theorem contract_ignores_b {i : Instr} (hi : formatOf i ≠ .r) (a b b' : Word) :
    contract i a b = contract i a b' := by
  cases i with
  | shl n | shr n | sar n | not | fmt | sfmt => rfl
  | _ => exact absurd rfl hi

/-- A step on a request that has an answer gives that answer, whatever else the state holds. -/
theorem step_of_answer {s : State} {r : Request} {rest : List Request} {rsp : Response}
    (hs : s.requests = r :: rest) (ha : r.answer = some rsp) : step s = .next (s.answered r rsp rest) := by
  cases hd : decode r.cmd with
  | reserved why => simp [Request.answer, hd] at ha
  | instr i =>
    obtain rfl := Option.some.inj ((Request.answer_of_decode hd).symm.trans ha)
    rw [step_of_decode hs hd, exec_cons i hs]

theorem responseOf_eq_contract (i : Instr) (a b : Word) : responseOf i a b = some (contract i a b) := by
  rw [responseOf, exec_cons (r := ⟨encode i, a, b⟩) (rest := []) i rfl]
  rfl

/-! ### The characters of the formatter -/

theorem decimalChars_length_pos (m : Nat) : 1 ≤ (decimalChars m).length := by
  rw [decimalChars, List.length_map]
  exact Nat.length_toDigits_pos

theorem decimalChars_length_le {m : Nat} (h : m < 10 ^ 39) : (decimalChars m).length ≤ 39 := by
  rw [decimalChars, List.length_map]
  exact (Nat.length_toDigits_le_iff (by decide) (by decide)).mpr h

/-- The byte of a digit's character is not the padding byte. -/
theorem decimalChars_ne_zero {m : Nat} {c : Byte} (hc : c ∈ decimalChars m) : c ≠ 0 := by
  obtain ⟨ch, hch, rfl⟩ := List.mem_map.mp hc
  have hdigit : 48 ≤ ch.toNat ∧ ch.toNat ≤ 57 := by
    simpa [Char.isDigit, UInt32.le_iff_toNat_le] using Nat.isDigit_of_mem_toDigits (by decide) (by decide) hch
  intro hzero
  have hmod : ch.toNat % 2 ^ 8 = 0 := congrArg BitVec.toNat hzero
  omega

/-- Characters that fit the port: at least one, at most 40, and none of them the padding byte (R31, R254). -/
structure FitsPort (chars : List Byte) : Prop where
  nonempty : 1 ≤ chars.length
  fits : chars.length ≤ 40
  noPadding : ∀ c ∈ chars, c ≠ 0

theorem decimalChars_fitsPort {m : Nat} (h : m < 10 ^ 39) : FitsPort (decimalChars m) :=
  ⟨decimalChars_length_pos m, (decimalChars_length_le h).trans (by decide), fun _ => decimalChars_ne_zero⟩

theorem minus_decimalChars_fitsPort {m : Nat} (h : m < 10 ^ 39) :
    FitsPort (Config.minusSign :: decimalChars m) where
  nonempty := by simp
  fits := Nat.succ_le_succ (decimalChars_length_le h)
  noPadding := List.forall_mem_cons.mpr ⟨by decide, fun _ => decimalChars_ne_zero⟩

/-- Either formatter's response is characters that fit the port. -/
theorem contract_format_fits {i : Instr} (hi : i ∈ [Instr.fmt, .sfmt]) (a b : Word) :
    ∃ chars, contract i a b = .text chars ∧ FitsPort chars := by
  have hu := a.isLt
  have hs : a.toInt.natAbs < 10 ^ 39 := by have := a.toInt_lt; have := a.le_toInt; omega
  simp only [List.mem_cons, List.not_mem_nil, or_false] at hi
  obtain rfl | rfl := hi
  · exact ⟨_, rfl, decimalChars_fitsPort (by omega)⟩
  · refine ⟨_, rfl, ?_⟩
    split
    · exact minus_decimalChars_fitsPort hs
    · exact decimalChars_fitsPort hs

section
variable {chars : List Byte} (h : FitsPort chars)
include h

theorem FitsPort.portLen_eq :
    ∃ len, portLen (.text chars) = some len ∧ len.toNat = chars.length := by
  refine ⟨_, rfl, ?_⟩
  have := h.fits
  rw [BitVec.toNat_ofNat, Nat.mod_eq_of_lt (by omega)]

theorem FitsPort.portStr_ne_zero {k : Fin Config.strMax} (hk : k < chars.length) :
    ∃ c, portStr (.text chars) k = some c ∧ c ≠ 0 :=
  ⟨chars[k], by simp [portStr, hk], h.noPadding _ (List.getElem_mem hk)⟩

end

theorem portStr_text_padding {chars : List Byte} {k : Fin Config.strMax} (hk : chars.length ≤ k) :
    portStr (.text chars) k = some 0 := by
  simp [portStr, hk]

/-! ### The obligations -/

/-- Settles O9: the response is the contract's, its kind is the operation's, and a field has a value for its
own kind only; what is left is to read the list of each kind off `kindOf`. -/
theorem everyOperationRespondsWithItsKindOnly : Obligations.EveryOperationRespondsWithItsKindOnly := by
  intro i s r rest hs
  refine ⟨_, exec_cons i hs, ?_⟩
  simp only [portR_isSome_iff, portC_isSome_iff, portT_isSome_iff, portLen_isSome_iff, portStr_isSome_iff,
    responseKind_contract]
  cases i <;> simp [kindOf]

/-- Settles O11: the step that went on fixes the request's answer, and the other state gives it too. -/
theorem responseDependsOnItsOwnRequestAlone : Obligations.ResponseDependsOnItsOwnRequestAlone := by
  intro s s' t r rest rest' hs hs' hstep
  obtain ⟨r', rsp, rest'', hs'', ha, rfl⟩ := step_next_cases hstep
  obtain ⟨rfl, rfl⟩ := List.cons.inj (hs.symm.trans hs'')
  exact ⟨_, step_of_answer hs' ha, rfl⟩

/-- Settles O12: both responses are the contract's, which ignores `B` there. -/
theorem operandBIsIgnoredByFormatsUAndS : Obligations.OperandBIsIgnoredByFormatsUAndS := by
  intro i s s' r r' rest rest' hi hs hs' ha
  refine ⟨_, exec_cons i hs, ?_⟩
  rw [exec_cons i hs', ← ha, contract_ignores_b hi r.a r.b r'.b]

/-- Settles O14: after reset nothing is recorded and the response port is empty. -/
theorem resetMeetsTheInvariant : Obligations.ResetMeetsTheInvariant where
  historySound := by simp
  portShowsLast := rfl

/-- Settles O16: planning and presenting change neither the record nor the response port, and reset clears
both. -/
theorem hostActionsAndResetKeepTheInvariant : Obligations.HostActionsAndResetKeepTheInvariant := by
  refine fun s hs => ⟨fun rs => hs.congr rfl rfl, resetMeetsTheInvariant, fun r t ht => ?_⟩
  obtain ⟨-, hp⟩ | ⟨-, hp⟩ := present_cases s r
  · obtain rfl := Host.Outcome.next.inj (hp.symm.trans ht)
    exact hs.congr rfl rfl
  · simp [hp] at ht

/-- Settles O20: reset leaves an idle core, and the answer of the request made of it is the one the other
state gave. -/
theorem resetLeavesNothingBehind : Obligations.ResetLeavesNothingBehind := by
  refine ⟨fun s => ⟨rfl, rfl, rfl⟩, fun s u r rest t hu hstep => ?_⟩
  obtain ⟨r', rsp, rest', hu', ha, rfl⟩ := step_next_cases hstep
  obtain ⟨rfl, rfl⟩ := List.cons.inj (hu.symm.trans hu')
  exact ⟨_, _, present_of_idle rfl r, step_of_answer rfl ha, rfl⟩

/-- Settles O24: LT compares values, and the wrapped sum is below an addend exactly when it wrapped. -/
theorem carryAndBorrowAreRecoveredByLessThan : Obligations.CarryAndBorrowAreRecoveredByLessThan := by
  intro a b
  simp only [responseOf_eq_contract, contract]
  refine ⟨⟨_, rfl, ?_⟩, ?_⟩
  · have ha := a.isLt
    have hb := b.isLt
    simp only [BitVec.toNat_ofNat, Option.some.injEq, Response.truth.injEq, decide_eq_decide]
    omega
  · simp only [Option.some.injEq, Response.truth.injEq, decide_eq_decide]
    omega

/-- Settles O49: the codes case by case, and for the formatter the characters that fit the port. -/
theorem responsePortCoding : Obligations.ResponsePortCoding := by
  refine ⟨by rintro (_ | _ | _) <;> decide, by decide, fun i hi a b => ?_⟩
  obtain ⟨chars, hc, hfits⟩ := contract_format_fits hi a b
  obtain ⟨len, hlen, hn⟩ := hfits.portLen_eq
  refine ⟨_, len, responseOf_eq_contract i a b, hc ▸ hlen, hn ▸ hfits.nonempty, hn ▸ hfits.fits,
    fun k => ?_⟩
  rw [hc, hn]
  exact ⟨portStr_text_padding, hfits.portStr_ne_zero⟩

/-- Settles O52: each clause is a law of words and limbs. -/
theorem limbRoundTrip : Obligations.LimbRoundTrip := by
  refine ⟨fun h l => ⟨high_fromParts h l, low_fromParts h l, fromParts_toNat h l,
    fun i _ => fromParts_getLsbD h l i, ?_⟩,
    fun v => ⟨fromParts_high_low v, fun i hi => ⟨high_getLsbD v i, ?_⟩⟩⟩
  · rw [toInt_eq_limbs, high_fromParts, low_fromParts]
  · rw [low_getLsbD, decide_eq_true hi, Bool.true_and]

end Sys2Proof.Machine

/-! SUPPORT. The record of a legal stream as a function of its requests alone, and the obligation on the
order of transactions. -/

namespace Sys2Proof.Machine

/-- The transaction a request makes, whatever was asked before it; none for a reserved command word. -/
def Request.transaction? (r : Request) : Option Transaction := r.answer.map (Transaction.mk r)

/-- The transactions a stream makes, in its order. -/
def performed (rs : List Request) : List Transaction := rs.filterMap Request.transaction?

@[simp] theorem performed_nil : performed [] = [] := rfl

@[simp] theorem performed_cons_of_answer {r : Request} {rsp : Response} (ha : r.answer = some rsp)
    (rs : List Request) : performed (r :: rs) = ⟨r, rsp⟩ :: performed rs :=
  List.filterMap_cons_some (by rw [Request.transaction?, ha, Option.map_some])

theorem performed_perm {rs rs' : List Request} (h : rs.Perm rs') : (performed rs).Perm (performed rs') :=
  h.filterMap _

/-- The responses the contract gives, each beside its own request. -/
theorem zipWith_eq_performed {rs : List Request} {rsps : List Response}
    (h : rsps.map some = rs.map Request.answer) : List.zipWith Transaction.mk rs rsps = performed rs := by
  induction rs generalizing rsps with
  | nil => rfl
  | cons r rs ih =>
    cases rsps with
    | nil => cases h
    | cons rsp rsps =>
      obtain ⟨ha, hrest⟩ := List.cons.inj h
      rw [List.zipWith_cons_cons, ih hrest, performed_cons_of_answer ha.symm]

theorem Request.answer_of_legal {r : Request} (h : r.legal = true) : ∃ rsp, r.answer = some rsp := by
  obtain ⟨i, hd⟩ := Request.decode_of_legal h
  exact ⟨_, Request.answer_of_decode hd⟩

/-- A legal stream leaves no request out. -/
theorem performed_requests {rs : List Request} (h : ∀ r ∈ rs, r.legal = true) :
    (performed rs).map Transaction.request = rs := by
  induction rs with
  | nil => rfl
  | cons r rs ih =>
    obtain ⟨hr, hrest⟩ := List.forall_mem_cons.mp h
    obtain ⟨rsp, ha⟩ := Request.answer_of_legal hr
    rw [performed_cons_of_answer ha, List.map_cons, ih hrest]

theorem State.safe_iff (s : State) : s.safe = true ↔ ∀ r ∈ s.requests, r.legal = true := List.all_eq_true

/-- A safe run adds what its own requests make to the record, in their order. -/
theorem run_of_safe {s : State} (hs : s.safe = true) :
    ∃ t : State, core.run s.requests.length s = .next t ∧
      t.history = s.history ++ performed s.requests ∧
      t.history.map Transaction.request = s.history.map Transaction.request ++ s.requests := by
  obtain ⟨t, rsps, hrun, -, hrsps, hhist⟩ := aLegalStreamIsAnsweredInOrder s hs
  rw [zipWith_eq_performed hrsps] at hhist
  exact ⟨t, hrun, hhist, by rw [hhist, List.map_append, performed_requests (s.safe_iff.mp hs)]⟩

/-- Settles O18: each run adds to the common record what its requests make, request by request, so permuted
streams add permuted transactions. -/
theorem transactionsCommute : Obligations.TransactionsCommute := by
  intro s s' hsafe hperm hhist
  have hsafe' : s'.safe = true := s'.safe_iff.mpr fun r hr => s.safe_iff.mp hsafe r (hperm.mem_iff.mpr hr)
  obtain ⟨t, hrun, ht, horder⟩ := run_of_safe hsafe
  obtain ⟨t', hrun', ht', horder'⟩ := run_of_safe hsafe'
  refine ⟨t, t', hrun, hrun', horder, horder', ?_⟩
  rw [ht, ht', hhist]
  exact (performed_perm hperm).append_left _

end Sys2Proof.Machine

/-! SUPPORT. The command word as its four fields, the operation map as the encodings of the operations, and
from both the one law of the decoder: a word decodes to an operation exactly where it is its encoding (D27).
After them the obligations on decoding and encoding. -/

namespace Sys2Proof.Machine

/-! ### The four fields of a command word (R70) -/

section
variable (u u' : BitVec 4) (f f' : BitVec 3) (s s' : BitVec 1) (n n' : BitVec 8)

@[simp] theorem unitOf_cmdWord : unitOf (cmdWord u f s n) = u :=
  (BitVec.extractLsb'_append_eq_of_le (by decide)).trans <|
    (BitVec.extractLsb'_append_eq_of_le (by decide)).trans BitVec.extractLsb'_append_eq_left

@[simp] theorem funcOf_cmdWord : funcOf (cmdWord u f s n) = f :=
  (BitVec.extractLsb'_append_eq_of_le (by decide)).trans <|
    (BitVec.extractLsb'_append_eq_of_le (by decide)).trans BitVec.extractLsb'_append_eq_right

@[simp] theorem signOf_cmdWord : signOf (cmdWord u f s n) = s :=
  (BitVec.extractLsb'_append_eq_of_le (by decide)).trans BitVec.extractLsb'_append_eq_right

@[simp] theorem amountOf_cmdWord : amountOf (cmdWord u f s n) = n := BitVec.extractLsb'_append_eq_right

theorem cmdWord_and :
    cmdWord u f s n &&& cmdWord u' f' s' n' = cmdWord (u &&& u') (f &&& f') (s &&& s') (n &&& n') := by
  unfold cmdWord
  rw [← BitVec.and_append, ← BitVec.and_append, ← BitVec.and_append]

/-- The mask of a format S row clears the amount and keeps the other fields. -/
theorem cmdWord_and_fieldMask : cmdWord u f s n &&& 0xFF00 = cmdWord u f s 0 := by
  have hmask : (0xFF00 : Cmd) = cmdWord (BitVec.allOnes 4) (BitVec.allOnes 3) (BitVec.allOnes 1) 0 := by decide
  rw [hmask, cmdWord_and]
  simp only [BitVec.and_allOnes, BitVec.ofNat_eq_ofNat, BitVec.and_zero]

end

/-- A word is its fields. -/
theorem cmdWord_fields (w : Cmd) : cmdWord (unitOf w) (funcOf w) (signOf w) (amountOf w) = w := by
  unfold cmdWord unitOf funcOf signOf amountOf
  rw [BitVec.extractLsb'_append_extractLsb'_eq_extractLsb' (by rfl),
    BitVec.extractLsb'_append_extractLsb'_eq_extractLsb' (by rfl),
    BitVec.extractLsb'_append_extractLsb'_eq_extractLsb' (by rfl)]
  exact BitVec.extractLsb'_eq_self

/-- `N` is the low byte. -/
theorem amountOf_toNat (w : Cmd) : (amountOf w).toNat = (w &&& 0x00FF).toNat := by
  have hlow : (w &&& 0x00FF).toNat = w.toNat % 2 ^ 8 := Nat.and_two_pow_sub_one_eq_mod w.toNat 8
  rw [hlow, amountOf, BitVec.extractLsb'_toNat, Nat.shiftRight_zero]

/-- A word with given fields, read by the mask of a format S row. -/
theorem cmdWord_eq_iff (u : BitVec 4) (f : BitVec 3) (s : BitVec 1) (n : BitVec 8) (w : Cmd) :
    cmdWord u f s n = w ↔ w &&& 0xFF00 = cmdWord u f s 0 ∧ n = amountOf w := by
  constructor
  · rintro rfl
    exact ⟨cmdWord_and_fieldMask u f s n, (amountOf_cmdWord u f s n).symm⟩
  · rintro ⟨hmask, rfl⟩
    rw [← cmdWord_fields w, cmdWord_and_fieldMask] at hmask
    have hu := congrArg unitOf hmask
    have hf := congrArg funcOf hmask
    have hs := congrArg signOf hmask
    simp only [unitOf_cmdWord, funcOf_cmdWord, signOf_cmdWord] at hu hf hs
    rw [← hu, ← hf, ← hs, cmdWord_fields]

/-! ### The operations by name (R73) -/

/-- The operations of the map before the shifters; none has an amount. -/
def numericInstrs : List Instr :=
  [.add, .sub, .mul, .div, .sdiv, .mod, .smod, .cmp, .scmp, .eq, .lt, .slt, .le, .sle, .gt, .sgt, .ge, .sge]

/-- The operations of the map after the shifters; none has an amount. -/
def logicAndFormatInstrs : List Instr := [.and, .or, .xor, .not, .fmt, .sfmt]

/-- The 24 operations without an amount. -/
def plainInstrs : List Instr := numericInstrs ++ logicAndFormatInstrs

/-- The three shift mnemonics. -/
def shiftOps : List ShiftOp := [.shl, .shr, .sar]

theorem mem_shiftOps (op : ShiftOp) : op ∈ shiftOps := by cases op <;> decide

/-- An operation is plain or a shift by some amount. -/
theorem instr_cases (i : Instr) : i ∈ plainInstrs ∨ ∃ (op : ShiftOp) (n : Nat), i = op.instr n := by
  cases i with
  | shl n => exact .inr ⟨.shl, n, rfl⟩
  | shr n => exact .inr ⟨.shr, n, rfl⟩
  | sar n => exact .inr ⟨.sar, n, rfl⟩
  | _ => exact .inl (by decide)

theorem wellFormed_of_plain {i : Instr} (hi : i ∈ plainInstrs) : i.wellFormed = true := by
  revert i; decide

@[simp] theorem ShiftOp.wellFormed_instr (op : ShiftOp) (n : Nat) :
    (op.instr n).wellFormed = shamtFits n := by
  cases op <;> rfl

theorem shamtFits_iff (n : Nat) : shamtFits n = true ↔ n < 256 := decide_eq_true_iff

/-- The words of a shift: its base in the upper byte, the amount in the lower one (R74). -/
theorem encode_shift_eq_iff (op : ShiftOp) {n : Nat} (hn : shamtFits n = true) (w : Cmd) :
    encode (op.instr n) = w ↔ w &&& 0xFF00 = encode (op.instr 0) ∧ n = (amountOf w).toNat := by
  have hamount : n = (amountOf w).toNat ↔ BitVec.ofNat 8 n = amountOf w := by
    rw [← BitVec.toNat_inj, shamt_toNat hn]
  rw [hamount]
  cases op <;> exact cmdWord_eq_iff _ _ _ _ w

/-! ### The rows of the map are the encodings -/

/-- The row of an operation without an amount. -/
def plainRow (i : Instr) : Row := fixedRow (encode i) i

/-- The row of a shift. -/
def shiftOpRow (op : ShiftOp) : Row := shiftRow (encode (op.instr 0)) op.instr

/-- The map, operation by operation. -/
theorem rows_eq : rows = numericInstrs.map plainRow ++ shiftOps.map shiftOpRow ++
    logicAndFormatInstrs.map plainRow := rfl

theorem mem_rows {r : Row} (hr : r ∈ rows) :
    (∃ i ∈ plainInstrs, r = plainRow i) ∨ ∃ op, r = shiftOpRow op := by
  simp only [rows_eq, List.mem_append, List.mem_map] at hr
  obtain (⟨i, hi, rfl⟩ | ⟨op, -, rfl⟩) | ⟨i, hi, rfl⟩ := hr
  · exact .inl ⟨i, List.mem_append_left _ hi, rfl⟩
  · exact .inr ⟨op, rfl⟩
  · exact .inl ⟨i, List.mem_append_right _ hi, rfl⟩

theorem plainRow_matches_iff (i : Instr) (w : Cmd) : (plainRow i).matches w = true ↔ encode i = w := by
  have hmask : w &&& 0xFFFF = w := BitVec.and_allOnes
  have hpat : w &&& 0xFFFF = encode i ↔ encode i = w := by rw [hmask, eq_comm]
  exact beq_iff_eq.trans hpat

theorem shiftOpRow_matches_iff (op : ShiftOp) (w : Cmd) :
    (shiftOpRow op).matches w = true ↔ w &&& 0xFF00 = encode (op.instr 0) :=
  beq_iff_eq

/-- What a row makes of a word it matches is well-formed and spelled by that word. -/
theorem encode_make_of_matches {r : Row} (hr : r ∈ rows) {w : Cmd} (hw : r.matches w = true) :
    (r.make (amountOf w).toNat).wellFormed = true ∧ encode (r.make (amountOf w).toNat) = w := by
  obtain ⟨i, hi, rfl⟩ | ⟨op, rfl⟩ := mem_rows hr
  · exact ⟨wellFormed_of_plain hi, (plainRow_matches_iff i w).mp hw⟩
  · have hfits : shamtFits (amountOf w).toNat = true := (shamtFits_iff _).mpr (amountOf w).isLt
    exact ⟨(op.wellFormed_instr _).trans hfits,
      (encode_shift_eq_iff op hfits w).mpr ⟨(shiftOpRow_matches_iff op w).mp hw, rfl⟩⟩

/-- Where two rows fix the same bits, a word that matches both shows that they do not differ. -/
theorem masked_agree (w m m' : Cmd) : ((w &&& m) ^^^ (w &&& m')) &&& m &&& m' = 0 := by
  ext i hi
  simp only [BitVec.getElem_and, BitVec.getElem_xor, BitVec.ofNat_eq_ofNat, BitVec.getElem_zero]
  cases m[i] <;> cases m'[i] <;> simp

/-- A word matches one row at most: two rows differ in a bit that both fix. -/
theorem rows_match_at_most_one (w : Cmd) : (rows.filter fun r => r.matches w).length ≤ 1 := by
  have hpair := rows_disjoint.filter fun r => r.matches w
  have hmatch : ∀ r ∈ rows.filter fun r => r.matches w, w &&& r.mask = r.pat := fun r hr =>
    eq_of_beq (List.mem_filter.mp hr).2
  match hrows : rows.filter fun r => r.matches w with
  | [] | [_] => simp [hrows]
  | r :: r' :: rest =>
    rw [hrows] at hpair hmatch
    refine absurd ?_ (List.rel_of_pairwise_cons hpair (List.mem_cons_self ..))
    rw [← hmatch r (by simp), ← hmatch r' (by simp)]
    exact masked_agree w r.mask r'.mask

/-! ### Decoding is the inverse of encoding (D27) -/

theorem decode_encode {i : Instr} (hi : i.wellFormed = true) : decode (encode i) = .instr i := by
  cases i with
  | add => exact Laws.RoundTrip.add hi
  | sub => exact Laws.RoundTrip.sub hi
  | mul => exact Laws.RoundTrip.mul hi
  | div => exact Laws.RoundTrip.div hi
  | sdiv => exact Laws.RoundTrip.sdiv hi
  | mod => exact Laws.RoundTrip.mod hi
  | smod => exact Laws.RoundTrip.smod hi
  | cmp => exact Laws.RoundTrip.cmp hi
  | scmp => exact Laws.RoundTrip.scmp hi
  | eq => exact Laws.RoundTrip.eq hi
  | lt => exact Laws.RoundTrip.lt hi
  | slt => exact Laws.RoundTrip.slt hi
  | le => exact Laws.RoundTrip.le hi
  | sle => exact Laws.RoundTrip.sle hi
  | gt => exact Laws.RoundTrip.gt hi
  | sgt => exact Laws.RoundTrip.sgt hi
  | ge => exact Laws.RoundTrip.ge hi
  | sge => exact Laws.RoundTrip.sge hi
  | shl n => exact Laws.RoundTrip.shl n hi
  | shr n => exact Laws.RoundTrip.shr n hi
  | sar n => exact Laws.RoundTrip.sar n hi
  | and => exact Laws.RoundTrip.and hi
  | or => exact Laws.RoundTrip.or hi
  | xor => exact Laws.RoundTrip.xor hi
  | not => exact Laws.RoundTrip.not hi
  | fmt => exact Laws.RoundTrip.fmt hi
  | sfmt => exact Laws.RoundTrip.sfmt hi

/-- A word that decodes was matched by a row. -/
theorem encode_of_decode {w : Cmd} {i : Instr} (h : decode w = .instr i) :
    i.wellFormed = true ∧ encode i = w := by
  unfold decode at h
  split at h
  · next r hfind =>
    cases h
    have hmatch : r.matches w = true := List.find?_some (p := fun r : Row => r.matches w) hfind
    exact encode_make_of_matches (List.mem_of_find?_eq_some hfind) hmatch
  · cases h

theorem decode_eq_instr_iff (w : Cmd) (i : Instr) :
    decode w = .instr i ↔ i.wellFormed = true ∧ encode i = w :=
  ⟨encode_of_decode, fun ⟨hi, hw⟩ => hw ▸ decode_encode hi⟩

/-- Settles O2: the round trip of each operation. -/
theorem decodeOfEncodeIsTheInstruction : Obligations.DecodeOfEncodeIsTheInstruction :=
  fun _ hi => decode_encode hi

/-- Settles O3: the word matches a row, and the row is the encoding of its operation. -/
theorem encodeOfDecodeIsTheWord : Obligations.EncodeOfDecodeIsTheWord :=
  fun _ _ h => encode_of_decode h

/-! ### The words of an operation (R73) -/

theorem spelledBy_of_encode {i : Instr} {w : Cmd} (hi : i ∈ plainInstrs) (hw : encode i = w) :
    SpelledBy i w := fun v => by
  rw [decode_eq_instr_iff, wellFormed_of_plain hi, hw, eq_comm (a := w)]
  exact and_iff_right rfl

theorem spelledByShift_of_encode {op : ShiftOp} {base : Cmd} (hbase : encode (op.instr 0) = base) :
    SpelledByShift op.instr base := fun v n => by
  rw [decode_eq_instr_iff, op.wellFormed_instr, ← hbase, ← amountOf_toNat]
  constructor
  · rintro ⟨hn, hv⟩
    exact (encode_shift_eq_iff op hn v).mp hv
  · rintro ⟨hv, rfl⟩
    have hn : shamtFits (amountOf v).toNat = true := (shamtFits_iff _).mpr (amountOf v).isLt
    exact ⟨hn, (encode_shift_eq_iff op hn v).mpr ⟨hv, rfl⟩⟩

/-- Settles O1: each literal of the map is the encoding of its operation, and the columns are read off
`formatOf` and `kindOf` operation by operation. -/
theorem eachOperationMapRowSpellsItsOperation : Obligations.EachOperationMapRowSpellsItsOperation := by
  have plain {i : Instr} {w : Cmd} (h : i ∈ plainInstrs ∧ encode i = w) : SpelledBy i w :=
    spelledBy_of_encode h.1 h.2
  have shift (op : ShiftOp) {base : Cmd} (h : encode (op.instr 0) = base) : SpelledByShift op.instr base :=
    spelledByShift_of_encode h
  refine ⟨rows_match_at_most_one, ?_, ?_, ?_, ?_, ?_, ?_⟩
  · exact ⟨plain (by decide), plain (by decide), plain (by decide), plain (by decide), plain (by decide),
      plain (by decide), plain (by decide), plain (by decide), plain (by decide), plain (by decide),
      plain (by decide), plain (by decide), plain (by decide), plain (by decide), plain (by decide),
      plain (by decide), plain (by decide), plain (by decide), shift .shl (by decide), shift .shr (by decide),
      shift .sar (by decide), plain (by decide), plain (by decide), plain (by decide), plain (by decide),
      plain (by decide), plain (by decide)⟩
  all_goals
    intro i
    cases i <;> simp [formatOf, kindOf]

/-! ### The reserved words (R76) -/

/-- The decoder answers a class of R76 where no operation is spelled. -/
theorem decode_reserved_iff (w : Cmd) : (∃ why, decode w = .reserved why) ↔ ¬∃ i, decode w = .instr i := by
  cases decode w with
  | instr i => simp
  | reserved why => simp

/-- The classes of R76 that the fields above the amount decide. -/
def ReservedFields (u : BitVec 4) (f : BitVec 3) (s : BitVec 1) : Prop :=
  (u.toNat = 0 ∨ 0xA ≤ u.toNat) ∨ (u.toNat ∈ [1, 2, 3, 6, 7, 9] ∧ f.toNat ≠ 0) ∨
  (u.toNat = 4 ∧ 2 ≤ f.toNat) ∨ (u.toNat = 5 ∧ 6 ≤ f.toNat) ∨ (u.toNat = 8 ∧ 4 ≤ f.toNat) ∨
  ((u.toNat ∈ [1, 2, 3, 6, 8] ∨ (u.toNat = 5 ∧ f.toNat = 1)) ∧ s = 1)

/-- The fields of the shifters' operations are those of units 6 and 7 that are not reserved. -/
theorem shift_fields_iff (u : BitVec 4) (f : BitVec 3) (s : BitVec 1) :
    (∃ op ∈ shiftOps, encode (op.instr 0) = cmdWord u f s 0) ↔
      ¬ReservedFields u f s ∧ (u.toNat = 6 ∨ u.toNat = 7) := by
  unfold ReservedFields
  revert u f s
  decide +kernel

/-- The fields of the other operations are those of the other units that are not reserved. -/
theorem plain_fields_iff (u : BitVec 4) (f : BitVec 3) (s : BitVec 1) :
    (∃ i ∈ plainInstrs, encode i = cmdWord u f s 0) ↔
      ¬ReservedFields u f s ∧ u.toNat ≠ 6 ∧ u.toNat ≠ 7 := by
  unfold ReservedFields
  revert u f s
  decide +kernel

theorem amountOf_encode_plain {i : Instr} (hi : i ∈ plainInstrs) : amountOf (encode i) = 0 := by
  revert i
  decide

/-- A word spells a plain operation, with the amount at zero, or a shift, with any amount. -/
theorem decode_instr_iff_fields (u : BitVec 4) (f : BitVec 3) (s : BitVec 1) (n : BitVec 8) :
    (∃ i, decode (cmdWord u f s n) = .instr i) ↔
      (n = 0 ∧ ∃ i ∈ plainInstrs, encode i = cmdWord u f s 0) ∨
        ∃ op ∈ shiftOps, encode (op.instr 0) = cmdWord u f s 0 := by
  constructor
  · rintro ⟨i, hd⟩
    obtain ⟨hwf, hw⟩ := encode_of_decode hd
    obtain hi | ⟨op, k, rfl⟩ := instr_cases i
    · have hn : n = 0 := by rw [← amountOf_cmdWord u f s n, ← hw, amountOf_encode_plain hi]
      exact .inl ⟨hn, i, hi, hn ▸ hw⟩
    · rw [op.wellFormed_instr] at hwf
      rw [encode_shift_eq_iff op hwf, cmdWord_and_fieldMask] at hw
      exact .inr ⟨op, mem_shiftOps op, hw.1.symm⟩
  · rintro (⟨rfl, i, hi, hw⟩ | ⟨op, -, hw⟩)
    · exact ⟨i, hw ▸ decode_encode (wellFormed_of_plain hi)⟩
    · refine ⟨op.instr n.toNat, (spelledByShift_of_encode hw _ _).mpr ⟨cmdWord_and_fieldMask u f s n, ?_⟩⟩
      rw [← amountOf_toNat, amountOf_cmdWord]

theorem decode_reserved_iff_fields (w : Cmd) : (∃ why, decode w = .reserved why) ↔
    ReservedFields (unitOf w) (funcOf w) (signOf w) ∨
      ((unitOf w).toNat ≠ 6 ∧ (unitOf w).toNat ≠ 7 ∧ (amountOf w).toNat ≠ 0) := by
  have hzero : amountOf w = 0 ↔ (amountOf w).toNat = 0 := BitVec.toNat_inj.symm
  have hfields := decode_instr_iff_fields (unitOf w) (funcOf w) (signOf w) (amountOf w)
  rw [cmdWord_fields, plain_fields_iff, shift_fields_iff, hzero] at hfields
  rw [decode_reserved_iff, hfields]
  tauto

/-! ### The legal words, listed (R76) -/

/-- The well-formed operations. -/
def wellFormedInstrs : List Instr :=
  plainInstrs ++ shiftOps.flatMap fun op => (List.range 256).map op.instr

theorem mem_wellFormedInstrs (i : Instr) : i ∈ wellFormedInstrs ↔ i.wellFormed = true := by
  simp only [wellFormedInstrs, List.mem_append, List.mem_flatMap, List.mem_map, List.mem_range]
  constructor
  · rintro (hi | ⟨op, -, n, hn, rfl⟩)
    · exact wellFormed_of_plain hi
    · exact (op.wellFormed_instr n).trans ((shamtFits_iff n).mpr hn)
  · intro hwf
    obtain hi | ⟨op, n, rfl⟩ := instr_cases i
    · exact .inl hi
    · rw [op.wellFormed_instr, shamtFits_iff] at hwf
      exact .inr ⟨op, mem_shiftOps op, n, hwf, rfl⟩

theorem ShiftOp.instr_inj {op op' : ShiftOp} {n n' : Nat} :
    op.instr n = op'.instr n' ↔ op = op' ∧ n = n' := by
  cases op <;> cases op' <;> simp [ShiftOp.instr]

theorem ShiftOp.instr_not_plain (op : ShiftOp) (n : Nat) : op.instr n ∉ plainInstrs := by
  cases op <;> simp [ShiftOp.instr, plainInstrs, numericInstrs, logicAndFormatInstrs]

theorem wellFormedInstrs_nodup : wellFormedInstrs.Nodup := by
  refine List.nodup_append'.mpr ⟨by decide, List.nodup_flatMap.mpr ⟨fun op _ => ?_, ?_⟩, ?_⟩
  · exact List.nodup_range.map fun n n' h => (ShiftOp.instr_inj.mp h).2
  · have hops : shiftOps.Nodup := by decide
    refine hops.imp fun hne i hi hi' => ?_
    obtain ⟨n, -, rfl⟩ := List.mem_map.mp hi
    obtain ⟨n', -, h⟩ := List.mem_map.mp hi'
    exact hne (ShiftOp.instr_inj.mp h).1.symm
  · intro i hi hshift
    obtain ⟨op, -, hi'⟩ := List.mem_flatMap.mp hshift
    obtain ⟨n, -, rfl⟩ := List.mem_map.mp hi'
    exact op.instr_not_plain n hi

theorem wellFormedInstrs_length : wellFormedInstrs.length = 792 := by
  simp [wellFormedInstrs, plainInstrs, numericInstrs, logicAndFormatInstrs, shiftOps]

/-- The command words that spell an operation. -/
def legalWords : List Cmd := wellFormedInstrs.map encode

/-- Decoding undoes encoding, so no two operations share a word. -/
theorem legalWords_nodup : legalWords.Nodup := by
  refine wellFormedInstrs_nodup.map_on fun i hi j hj h => ?_
  rw [mem_wellFormedInstrs] at hi hj
  exact Decoded.instr.inj ((decode_encode hi).symm.trans (h ▸ decode_encode hj))

theorem mem_legalWords (w : Cmd) : w ∈ legalWords ↔ ∃ i, decode w = .instr i := by
  simp only [legalWords, List.mem_map, mem_wellFormedInstrs, decode_eq_instr_iff]

/-! ### A step looks at the command word first (R79) -/

section
variable {s : State} {r : Request} {rest : List Request}

theorem step_of_reserved {why : Reserved} (hs : s.requests = r :: rest)
    (hd : decode r.cmd = .reserved why) : step s = .refused (.reservedCommand r.cmd why) := by
  simp [step, State.port, hs, hd]

/-- A step goes on exactly where the command word spells an operation. -/
theorem step_next_iff (hs : s.requests = r :: rest) :
    (∃ t, step s = .next t) ↔ ∃ i, decode r.cmd = .instr i := by
  cases hd : decode r.cmd with
  | instr i => simp [step_of_decode hs hd, exec_cons i hs]
  | reserved why => simp [step_of_reserved hs hd]

/-- A step is refused for the class its command word falls in. -/
theorem step_reserved_iff (hs : s.requests = r :: rest) (why : Reserved) :
    step s = .refused (.reservedCommand r.cmd why) ↔ decode r.cmd = .reserved why := by
  cases hd : decode r.cmd with
  | instr i => simp [step_of_decode hs hd, exec_cons i hs]
  | reserved why' => simp [step_of_reserved hs hd]

end

/-- Settles O4: the classes by fields, the legal words as the encodings of the well-formed operations, and
the refusal by `step`'s own test. -/
theorem reservedWordsAreTheListedClassesAndAreRefused :
    Obligations.ReservedWordsAreTheListedClassesAndAreRefused := by
  refine ⟨fun w => ?_, ⟨legalWords, legalWords_nodup, ?_, mem_legalWords⟩,
    fun s r rest why hs hd => step_of_reserved hs hd⟩
  · rw [decode_reserved_iff_fields, ReservedFields]
    simp only [or_assoc]
  · rw [legalWords, List.length_map, wellFormedInstrs_length]

/-- Settles O5: both the step and the refusal are decided by what the command word decodes to. -/
theorem legalityIsDecidedByTheCommandWordAlone : Obligations.LegalityIsDecidedByTheCommandWordAlone := by
  intro s s' r r' rest rest' hs hs' hcmd
  refine ⟨?_, fun why => ?_⟩
  · rw [step_next_iff hs, step_next_iff hs', hcmd]
  · rw [step_reserved_iff hs, step_reserved_iff hs', hcmd]

/-- Settles O6: each word is evaluated. -/
theorem sampleWordsDecodeAsTheSpecSays : Obligations.SampleWordsDecodeAsTheSpecSays := by
  unfold Obligations.SampleWordsDecodeAsTheSpecSays
  decide

end Sys2Proof.Machine

/-! SUPPORT. What a host reads, and what one transaction on an idle core gives it, said once; after them the
obligations on lines, pseudo-instructions and wiring that go on. -/

namespace Sys2Proof.Machine

/-! ### Reading a name that holds the value asked for -/

section
variable {st : Store} {x : String}

theorem readOperand_of_word {v : Word} (h : st.read x = some (.word v)) :
    readOperand st (.name x) = .next v := by
  simp [readOperand, readValue, h]

/-- A limb is a native integer of 64 bits (R102). -/
theorem readNative_of_limb {a : Limb} (h : st.read x = some (.native 64 a.toNat)) :
    readNative st x = .next (64, a.toNat) := by
  simp [readNative, readValue, h]

end

/-! ### One transaction on an idle core -/

/-- The core after it has performed `i` on `a` and `b` at the host's request. -/
def State.transacted (s : State) (i : Instr) (a b : Word) : State :=
  s.answered ⟨encode i, a, b⟩ (contract i a b) []

section
variable {s : State} {i : Instr} (a b : Word)

@[simp] theorem State.transacted_requests : (s.transacted i a b).requests = [] := rfl

@[simp] theorem State.transacted_history_length :
    (s.transacted i a b).history.length = s.history.length + 1 := by
  simp [State.transacted]

/-- An idle core performs a well-formed operation as the contract says. -/
theorem send_of_idle (hs : s.requests = []) (hi : i.wellFormed = true) :
    send i a b s = .next (contract i a b, s.transacted i a b) := by
  have hstep : step { s with requests := [⟨encode i, a, b⟩] } = .next (s.transacted i a b) :=
    step_of_answer (r := ⟨encode i, a, b⟩) rfl (Request.answer_of_decode (decode_encode hi))
  rw [send, if_pos hi, present_of_idle hs, andThen_next, hstep]
  rfl

end

theorem wellFormed_of_formatR {i : Instr} (hi : formatOf i = .r) : i.wellFormed = true := by
  cases i with
  | shl n | shr n | sar n => cases hi
  | _ => rfl

/-! ### The responses of the signed adapter and of EQ -/

theorem contract_add_not_one (v : Word) : contract .add (~~~v) (fromParts 0 1) = .word (neg v) := by
  rw [contract, ← addWord_eq_ofNat, ← notWord_eq, neg]

theorem contract_zero_sub (v : Word) : contract .sub (fromParts 0 0) v = .word (neg v) := by
  rw [contract, ← subWord_eq_ofInt, subWord_eq, neg_eq, fromParts_zero]
  exact congrArg Response.word (BitVec.zero_sub v)

/-! ### Pseudo-instructions (R82) -/

section
variable {h : HostState} {x y : String} {v w : Word} (d : String)

/-- `NEG d, a`: NOT, then ADD of one, with anything on the port that NOT ignores. -/
theorem runPseudo_neg (hx : h.store.read x = some (.word v)) (hs : h.core.requests = []) :
    runPseudo (.neg d (.name x)) h = .next ⟨h.store.write d (.word (neg v)),
      (h.core.transacted .not v (Config.undrivenB h.core.history.length)).transacted .add (~~~v)
        (fromParts 0 1)⟩ := by
  rw [runPseudo, readOperand_of_word hx, andThen_next, sendNeg, sendA, send_of_idle v _ hs rfl]
  simp only [sendForWord, andThen_next, contract]
  rw [send_of_idle _ _ (State.transacted_requests ..) rfl, andThen_next, contract_add_not_one]
  rfl

theorem runPseudo_negBySub (hx : h.store.read x = some (.word v)) (hs : h.core.requests = []) :
    runPseudo (.negBySub d (.name x)) h =
      .next ⟨h.store.write d (.word (neg v)), h.core.transacted .sub (fromParts 0 0) v⟩ := by
  rw [runPseudo, readOperand_of_word hx, andThen_next, send_of_idle _ v hs rfl, andThen_next, contract_zero_sub]
  rfl

theorem runPseudo_isZero (hx : h.store.read x = some (.word v)) (hs : h.core.requests = []) :
    runPseudo (.isZero d (.name x)) h =
      .next ⟨h.store.write d (.truth (decide (v = 0))), h.core.transacted .eq v 0⟩ := by
  rw [runPseudo, readOperand_of_word hx, andThen_next, fromParts_zero, send_of_idle v _ hs rfl]
  rfl

theorem runPseudo_ne (hx : h.store.read x = some (.word v)) (hy : h.store.read y = some (.word w))
    (hs : h.core.requests = []) :
    runPseudo (.ne d (.name x) (.name y)) h =
      .next ⟨h.store.write d (.truth (decide (v ≠ w))), h.core.transacted .eq v w⟩ := by
  rw [runPseudo, readOperand_of_word hx, readOperand_of_word hy, andThen_next, andThen_next,
    send_of_idle v w hs rfl, decide_not]
  rfl

end

/-- Settles O54: two transactions on the idle core, or one. -/
theorem negPseudoInstructionRuns : Obligations.NegPseudoInstructionRuns :=
  fun _ d _ _ hx hs =>
    ⟨⟨_, runPseudo_neg d hx hs, rfl, by simp⟩, ⟨_, runPseudo_negBySub d hx hs, rfl, by simp⟩⟩

/-- Settles O55: the response of EQ is bound as it is, or its complement. -/
theorem isZeroAndNePseudoInstructionsRun : Obligations.IsZeroAndNePseudoInstructionsRun :=
  fun _ p _ _ _ _ hx hy hs =>
    ⟨⟨_, runPseudo_isZero p hx hs, rfl, by simp⟩, ⟨_, runPseudo_ne p hx hy hs, rfl, by simp⟩⟩

/-! ### Wiring (R75, R105) -/

theorem runScript_wire (k : Nat) {d : String} {e : Wire} {h : HostState} {v : Value}
    (he : wireValue h.store e = .next v) :
    runScript (k + 1) (.wire d e) h = .next ⟨h.store.write d v, h.core⟩ := by
  rw [runScript, he, andThen_next]

theorem runScript_wire_core {k : Nat} {d : String} {e : Wire} {h g : HostState}
    (hrun : runScript k (.wire d e) h = .next g) : g.core = h.core := by
  cases k with
  | zero => cases hrun
  | succ k =>
    obtain ⟨v, -, hg⟩ := andThen_eq_next hrun
    cases hg
    rfl

theorem slice_high (v : Word) : slice v 127 64 = .next (.native 64 (high v).toNat) := by
  have hv := v.isLt
  have hval : v.toNat / 2 ^ 64 % 2 ^ (127 + 1 - 64) = v.toNat / 2 ^ 64 := Nat.mod_eq_of_lt (by omega)
  rw [slice, if_pos (by decide), high_toNat, hval]

theorem slice_low (v : Word) : slice v 63 0 = .next (.native 64 (low v).toNat) := by
  rw [slice, if_pos (by decide), low_toNat, Nat.pow_zero, Nat.div_one]

/-- Settles O56: each wiring expression has its value, and writing it leaves the core alone. -/
theorem wiringCostsNoTransaction : Obligations.WiringCostsNoTransaction := by
  refine ⟨fun k d e h g hrun => runScript_wire_core hrun, fun k d x h v hx => ⟨?_, ?_, ?_⟩,
    fun k d y z h a b hy hz => runScript_wire k ?_⟩
  · exact runScript_wire k (by rw [wireValue, readOperand_of_word hx, andThen_next])
  · exact runScript_wire k (by rw [wireValue, readOperand_of_word hx, andThen_next, slice_high])
  · exact runScript_wire k (by rw [wireValue, readOperand_of_word hx, andThen_next, slice_low])
  · simp [wireValue, readNative_of_limb hy, readNative_of_limb hz]

/-! ### The amount of a shift line (R74, U1) -/

theorem shiftAmount_of_neg {n : Int} (hn : n < 0) : shiftAmount n = .refused (.negativeShift n) := if_pos hn

theorem shiftAmount_of_large {n : Int} (hn : 255 < n) : shiftAmount n = .refused (.shiftTooLarge n) := by
  have hlarge : ¬n < 2 ^ Config.shamtW := by rw [Config.shamtW]; omega
  rw [shiftAmount, if_neg (by omega), if_neg hlarge]

theorem shiftAmount_in_range {n : Int} (h0 : 0 ≤ n) (hn : n ≤ 255) : shiftAmount n = .next n.toNat := by
  have hfits : n < 2 ^ Config.shamtW := by rw [Config.shamtW]; omega
  rw [shiftAmount, if_neg (by omega), if_pos hfits]

/-- Settles O59: the amount decides the line before anything is read, and in range the word is one of the
operation's own. -/
theorem shiftAmountIsNeverTruncated : Obligations.ShiftAmountIsNeverTruncated := by
  refine fun op d x n h => ⟨fun hn => ?_, fun hn => ?_, fun h0 hn => ⟨encode (op.instr n.toNat), ?_, ?_⟩⟩
  · simp [assemble, runLine, lineInstr, shiftAmount_of_neg hn]
  · simp [assemble, runLine, lineInstr, shiftAmount_of_large hn]
  · simp [assemble, lineInstr, shiftAmount_in_range h0 hn]
  · have hwf : (op.instr n.toNat).wellFormed = true :=
      (op.wellFormed_instr _).trans ((shamtFits_iff _).mpr (by omega))
    have hd := decode_encode hwf
    exact ⟨((spelledByShift_of_encode rfl _ _).mp hd).2.symm, hd⟩

/-! ### Lines on an idle core, and the compound forms (R83) -/

section
variable {h : HostState} {d x : String} {v : Word}

theorem runLine_two {i : Instr} {y : String} {w : Word} (hi : formatOf i = .r)
    (hx : h.store.read x = some (.word v)) (hy : h.store.read y = some (.word w))
    (hs : h.core.requests = []) :
    runLine (.two i d (.name x) (.name y)) h =
      .next ⟨h.store.write d (contract i v w).toValue, h.core.transacted i v w⟩ := by
  simp only [runLine, lineInstr, if_pos hi, andThen_next, readOperand_of_word hx, readOperand_of_word hy,
    send_of_idle v w hs (wellFormed_of_formatR hi)]
  rfl

theorem ShiftOp.format_instr (op : ShiftOp) (n : Nat) : formatOf (op.instr n) = .s := by
  cases op <;> rfl

theorem runLine_shift {op : ShiftOp} {n : Nat} (hn : n ≤ 255) (hx : h.store.read x = some (.word v))
    (hs : h.core.requests = []) :
    runLine (.shift op d (.name x) n) h = .next ⟨h.store.write d (contract (op.instr n) v 0).toValue,
      h.core.transacted (op.instr n) v (Config.undrivenB h.core.history.length)⟩ := by
  have hwf : (op.instr n).wellFormed = true :=
    (op.wellFormed_instr n).trans ((shamtFits_iff n).mpr (by omega))
  have hformat : formatOf (op.instr n) ≠ .r := by rw [op.format_instr]; decide
  simp only [runLine, lineInstr, shiftAmount_in_range (Int.natCast_nonneg n) (Int.ofNat_le.mpr hn),
    Int.toNat_natCast, andThen_next, readOperand_of_word hx, sendA, send_of_idle v _ hs hwf,
    contract_ignores_b hformat v _ 0]
  rfl

end

/-- Settles O57: the line's one write is to the receiver, of the response to its old value. -/
theorem compoundFormsReplaceTheReceiver : Obligations.CompoundFormsReplaceTheReceiver := by
  constructor
  · intro i hi h x y v w hx hy hs
    have hformat : formatOf i = .r := by revert i; decide
    exact ⟨_, _, runLine_two hformat hx hy hs, responseOf_eq_contract i v w, Store.read_write_self ..,
      fun z hz => Store.read_write_ne _ _ hz, State.transacted_requests ..⟩
  · intro op n h x v hn hx hs
    exact ⟨_, _, runLine_shift hn hx hs, responseOf_eq_contract _ v 0, Store.read_write_self ..,
      fun z hz => Store.read_write_ne _ _ hz, State.transacted_requests ..⟩

end Sys2Proof.Machine

/-! SUPPORT. The high limb of a widened native integer, narrowing after widening, and the obligation on
both. -/

namespace Sys2Proof.Machine

section
variable {k : Nat}

@[simp] theorem high_widenUnsigned (u : BitVec k) : high (widenUnsigned u) = 0 := high_fromParts ..

@[simp] theorem low_widenUnsigned (u : BitVec k) : low (widenUnsigned u) = u.setWidth 64 := low_fromParts ..

@[simp] theorem high_widenSigned (s : BitVec k) : high (widenSigned s) = fillLimb s.msb := high_fromParts ..

@[simp] theorem low_widenSigned (s : BitVec k) : low (widenSigned s) = s.signExtend 64 := low_fromParts ..

/-- Narrowing undoes R102: the source stands in the low limb, zeros above it. -/
theorem narrow_widenUnsigned (u : BitVec k) (hk : k ≤ 64) : narrow k (widenUnsigned u) = u := by
  rw [narrow, low_widenUnsigned, BitVec.setWidth_setWidth_of_le u hk, BitVec.setWidth_eq]

/-- Narrowing undoes R103: bit by bit, the sign copies of the low limb stand above bit `k - 1`. -/
theorem narrow_widenSigned (s : BitVec k) (hk : k ≤ 64) : narrow k (widenSigned s) = s := by
  apply BitVec.eq_of_getLsbD_eq
  intro i hi
  have hi64 : i < 64 := hi.trans_le hk
  rw [narrow, low_widenSigned, BitVec.getLsbD_setWidth, BitVec.getLsbD_signExtend, if_pos hi,
    decide_eq_true hi, decide_eq_true hi64, Bool.true_and, Bool.true_and]

end

/-- Settles O53: each clause is a law of every native width up to the limb's. -/
theorem wideningAndNarrowing : Obligations.WideningAndNarrowing := by
  intro k hmem x v
  have hk : k ≤ 64 := (by decide : ∀ n ∈ [8, 16, 32, 64], n ≤ 64) k hmem
  exact ⟨widenUnsigned_toNat x hk, high_widenUnsigned x, widenSigned_toInt x hk, high_widenSigned x,
    narrow_toNat k v hk, narrow_widenUnsigned x hk, narrow_widenSigned x hk⟩

end Sys2Proof.Machine

/-! SUPPORT. The order of two integers as the comparator answers it, and the two orders of words as readings
of words as integers; after them the obligations on the comparator and the bitwise unit. -/

namespace Sys2Proof.Machine

/-! ### The order of two integers -/

section
variable {x y : Int}

theorem intOrder_eq_less_iff : intOrder x y = .less ↔ x < y := by
  unfold intOrder; split_ifs <;> simp_all

theorem intOrder_eq_equal_iff : intOrder x y = .equal ↔ x = y := by
  unfold intOrder; split_ifs <;> simp <;> omega

theorem intOrder_eq_greater_iff : intOrder x y = .greater ↔ y < x := by
  unfold intOrder; split_ifs <;> simp <;> omega

end

/-- The code on `C` (R122): bit 0 less, bit 1 equal, bit 2 greater. -/
theorem orderCode_intOrder (x y : Int) :
    orderCode (intOrder x y) = if x < y then 0b001 else if x = y then 0b010 else 0b100 := by
  rw [intOrder, apply_ite orderCode, apply_ite orderCode]
  rfl

/-- `cmp` is the order of the integers that `val` reads words as, distinct words as distinct integers. -/
structure OrdersBy (cmp : Word → Word → Order) (val : Word → Int) : Prop where
  injective : ∀ {a b : Word}, val a = val b → a = b
  eq_intOrder : ∀ a b : Word, cmp a b = intOrder (val a) (val b)

/-- R120. -/
theorem ucmp_ordersBy : OrdersBy ucmp fun v => v.toNat :=
  ⟨fun h => BitVec.eq_of_toNat_eq (Int.ofNat_inj.mp h), ucmp_eq⟩

/-- R121. -/
theorem scmp_ordersBy : OrdersBy scmp BitVec.toInt := ⟨BitVec.eq_of_toInt_eq, scmp_eq⟩

section
variable {cmp : Word → Word → Order} {val : Word → Int} (h : OrdersBy cmp val) (a b c : Word)
include h

theorem OrdersBy.val_eq_iff : val a = val b ↔ a = b := ⟨h.injective, congrArg val⟩

theorem OrdersBy.equal_iff : cmp a b = .equal ↔ a = b := by
  rw [h.eq_intOrder, intOrder_eq_equal_iff, h.val_eq_iff]

theorem OrdersBy.less_trans (hab : cmp a b = .less) (hbc : cmp b c = .less) : cmp a c = .less := by
  rw [h.eq_intOrder, intOrder_eq_less_iff] at hab hbc ⊢
  exact hab.trans hbc

theorem OrdersBy.less_iff_greater : cmp a b = .less ↔ cmp b a = .greater := by
  rw [h.eq_intOrder, h.eq_intOrder, intOrder_eq_less_iff, intOrder_eq_greater_iff]

/-- Antisymmetry, as the predicates answer it. -/
theorem OrdersBy.eqWord_eq_isLe_and_isGe : eqWord a b = ((cmp a b).isLe && (cmp a b).isGe) := by
  rw [eqWord_eq, h.eq_intOrder, intOrder_isLe, intOrder_isGe, ← Bool.decide_and, decide_eq_decide,
    ← h.val_eq_iff]
  exact le_antisymm_iff

end

theorem Order.isLe_eq_not_isGt (o : Order) : o.isLe = !o.isGt := by cases o <;> rfl

theorem Order.isGe_eq_not_isLt (o : Order) : o.isGe = !o.isLt := by cases o <;> rfl

/-! ### Words, limbs and responses -/

theorem limbs_eq_iff (a b : Word) : (high a = high b ∧ low a = low b) ↔ a = b :=
  ⟨fun ⟨hh, hl⟩ => word_ext hh hl, by rintro rfl; exact ⟨rfl, rfl⟩⟩

/-- A response function the contract agrees with is what the operation answers with. -/
theorem answersWith_of_contract {i : Instr} {f : Word → Word → Response}
    (h : ∀ a b, contract i a b = f a b) : AnswersWith i f := fun _ r _ hs => by
  rw [exec_cons i hs, h r.a r.b]

/-- CMP and SCMP respond equal for identical words only. -/
theorem responseOf_eq_equal_iff {i : Instr} (hi : i ∈ [Instr.cmp, .scmp]) (a b : Word) :
    responseOf i a b = some (.order .equal) ↔ a = b := by
  rw [responseOf_eq_contract, Option.some_inj]
  simp only [List.mem_cons, List.not_mem_nil, or_false] at hi
  obtain rfl | rfl := hi
  · rw [contract, Response.order.injEq, ← ucmp_eq, ucmp_ordersBy.equal_iff]
  · rw [contract, Response.order.injEq, ← scmp_eq, scmp_ordersBy.equal_iff]

/-! ### The obligations -/

/-- Settles O41: both functions order the words by an injective reading of them as integers. -/
theorem bothOrdersAreTotal : Obligations.BothOrdersAreTotal := by
  intro cmp hcmp
  obtain ⟨val, h⟩ : ∃ val, OrdersBy cmp val := by
    simp only [List.mem_cons, List.not_mem_nil, or_false] at hcmp
    obtain rfl | rfl := hcmp
    · exact ⟨_, ucmp_ordersBy⟩
    · exact ⟨_, scmp_ordersBy⟩
  exact ⟨h.equal_iff, h.less_trans, h.less_iff_greater, fun a b =>
    ⟨(cmp a b).isLe_eq_not_isGt, (cmp a b).isGe_eq_not_isLt, h.eqWord_eq_isLe_and_isGe a b⟩⟩

/-- Settles O37: the response is the order of the values, and `C` is its code. -/
theorem threeWayComparisons : Obligations.ThreeWayComparisons := by
  refine ⟨spelledBy_of_encode (by decide) rfl, spelledBy_of_encode (by decide) rfl, rfl, rfl,
    fun s r rest hs => ⟨⟨_, exec_cons .cmp hs, ?_⟩, ⟨_, exec_cons .scmp hs, ?_⟩⟩⟩
  · simp only [contract, portC, orderCode_intOrder, Int.ofNat_lt, Int.ofNat_inj]
  · simp only [contract, portC, orderCode_intOrder]

/-- Settles O38: EQ, CMP and SCMP all answer the equality of the two words, which is that of their limbs. -/
theorem eqIsEqualityOfPatterns : Obligations.EqIsEqualityOfPatterns := by
  refine ⟨spelledBy_of_encode (by decide) rfl, rfl, by decide, limbs_eq_iff,
    answersWith_of_contract fun a b => ?_, fun a b i hi => ?_⟩
  · simp only [limbs_eq_iff, contract]
  · rw [responseOf_eq_equal_iff hi, responseOf_eq_contract]
    simp only [contract, Option.some.injEq, Response.truth.injEq, decide_eq_true_eq]

/-- Settles O39: each predicate is the contract's comparison of the unsigned values. -/
theorem unsignedPredicates : Obligations.UnsignedPredicates :=
  ⟨spelledBy_of_encode (by decide) rfl, spelledBy_of_encode (by decide) rfl,
    spelledBy_of_encode (by decide) rfl, spelledBy_of_encode (by decide) rfl, by decide,
    answersWith_of_contract fun _ _ => rfl, answersWith_of_contract fun _ _ => rfl,
    answersWith_of_contract fun _ _ => rfl, answersWith_of_contract fun _ _ => rfl⟩

/-- Settles O40: each predicate is the contract's comparison of the signed values. -/
theorem signedPredicates : Obligations.SignedPredicates :=
  ⟨spelledBy_of_encode (by decide) rfl, spelledBy_of_encode (by decide) rfl,
    spelledBy_of_encode (by decide) rfl, spelledBy_of_encode (by decide) rfl, by decide,
    answersWith_of_contract fun _ _ => rfl, answersWith_of_contract fun _ _ => rfl,
    answersWith_of_contract fun _ _ => rfl, answersWith_of_contract fun _ _ => rfl⟩

/-- Settles O42: the contract's result is the operation on whole words, whose bits are those of its
operands. -/
theorem logicIsBitwise : Obligations.LogicIsBitwise := by
  refine ⟨spelledBy_of_encode (by decide) rfl, spelledBy_of_encode (by decide) rfl,
    spelledBy_of_encode (by decide) rfl, spelledBy_of_encode (by decide) rfl, by decide, rfl,
    fun s r rest hs => ⟨⟨_, exec_cons .and hs, fun i _ => BitVec.getLsbD_and⟩,
      ⟨_, exec_cons .or hs, fun i _ => BitVec.getLsbD_or⟩,
      ⟨_, exec_cons .xor hs, fun i _ => BitVec.getLsbD_xor⟩,
      ⟨_, exec_cons .not hs, fun i hi => ?_⟩⟩⟩
  rw [BitVec.getLsbD_not, decide_eq_true hi, Bool.true_and]

end Sys2Proof.Machine

/-! SUPPORT. The limbs of a sum and of a difference of words, the values of wrapped sums and differences, and
the obligations on the adder and the subtractor. -/

namespace Sys2Proof.Machine

/-! ### Values of wrapped sums and differences, of any width -/

/-- A wrapped difference as an integer. -/
theorem sub_toNat_eq_emod {w : Nat} (x y : BitVec w) :
    ((x - y).toNat : Int) = ((x.toNat : Int) - y.toNat) % 2 ^ w := by
  have hwrap : (2 ^ w - y.toNat + x.toNat : Int) = x.toNat - y.toNat + 2 ^ w := by ring
  rw [BitVec.toNat_sub, Int.natCast_emod, Nat.cast_add, Nat.cast_sub y.isLt.le, Nat.cast_pow,
    Nat.cast_ofNat, hwrap, Int.add_emod_right]

/-- The wrapped sum falls below an addend exactly when the sum does not fit the limb (R150, R152). -/
theorem limb_add_lt_left_iff (x y : Limb) : (x + y).toNat < x.toNat ↔ 2 ^ 64 ≤ x.toNat + y.toNat := by
  have hx := x.isLt
  have hy := y.isLt
  rw [BitVec.toNat_add]
  omega

/-- So either addend serves for the carry test (R153). -/
theorem limb_add_lt_left_iff_lt_right (x y : Limb) :
    (x + y).toNat < x.toNat ↔ (x + y).toNat < y.toNat := by
  rw [limb_add_lt_left_iff, BitVec.add_comm, limb_add_lt_left_iff, Nat.add_comm]

/-! ### The limb formulas (R150, R151), read off the words -/

section
variable (a b : Word)

theorem low_add : low (a + b) = low a + low b := by
  rw [← addWord_eq, addWord, low_fromParts]

theorem high_add : high (a + b) = high a + high b + carryOf (low a) (low (a + b)) := by
  rw [low_add, ← addWord_eq, addWord, high_fromParts]

theorem low_sub : low (a - b) = low a - low b := by
  rw [← subWord_eq, subWord, low_fromParts]

theorem high_sub : high (a - b) = high a - high b - borrowOf (low a) (low b) := by
  rw [← subWord_eq, subWord, high_fromParts]

end

section
variable (x y : Limb)

theorem carryOf_toNat : (carryOf x y).toNat = if y.toNat < x.toNat then 1 else 0 := by
  rw [carryOf, apply_ite BitVec.toNat]
  rfl

theorem borrowOf_toNat : ((borrowOf x y).toNat : Int) = if x.toNat < y.toNat then 1 else 0 := by
  rw [borrowOf, apply_ite BitVec.toNat, Nat.cast_ite]
  rfl

end

/-! ### The contract of ADD and SUB as arithmetic of words -/

theorem contract_add (a b : Word) : contract .add a b = .word (a + b) := by
  rw [contract, ← addWord_eq_ofNat, addWord_eq]

theorem contract_sub (a b : Word) : contract .sub a b = .word (a - b) := by
  rw [contract, ← subWord_eq_ofInt, subWord_eq]

theorem responseOf_add (a b : Word) : responseOf .add a b = some (.word (a + b)) := by
  rw [responseOf_eq_contract, contract_add]

theorem responseOf_sub (a b : Word) : responseOf .sub a b = some (.word (a - b)) := by
  rw [responseOf_eq_contract, contract_sub]

/-! ### The obligations -/

/-- Settles O22: the response is the sum of words, and each clause a law of that sum. -/
theorem addWrapsModuloTwoToThe128 : Obligations.AddWrapsModuloTwoToThe128 := by
  refine ⟨spelledBy_of_encode (by decide) rfl, rfl, by decide, fun s r rest hs =>
    ⟨r.a + r.b, answersWith_of_contract contract_add s r rest hs, ?_, ?_, BitVec.toNat_add ..,
      BitVec.toInt_add ..⟩⟩
  · rw [low_add, BitVec.toNat_add]
  · rw [high_add, BitVec.toNat_add, BitVec.toNat_add, Nat.mod_add_mod, carryOf_toNat]

/-- Settles O23: the response is the difference of words, and each clause a law of that difference. -/
theorem subWrapsModuloTwoToThe128 : Obligations.SubWrapsModuloTwoToThe128 := by
  refine ⟨spelledBy_of_encode (by decide) rfl, rfl, by decide, fun s r rest hs =>
    ⟨r.a - r.b, answersWith_of_contract contract_sub s r rest hs, ?_, ?_, sub_toNat_eq_emod ..,
      BitVec.toInt_sub ..⟩⟩
  · rw [low_sub, sub_toNat_eq_emod]
  · rw [high_sub, sub_toNat_eq_emod, sub_toNat_eq_emod, Int.emod_sub_emod, borrowOf_toNat]

/-- Settles O25: three laws of the ring of words, and the carry test on either addend of the low limbs. -/
theorem additionLaws : Obligations.AdditionLaws := by
  intro a b
  simp only [responseOf_add, responseOf_sub]
  refine ⟨by rw [add_comm], ?_, ⟨_, rfl, by rw [add_sub_cancel]⟩, ⟨_, rfl, by rw [add_sub_cancel_right]⟩⟩
  rintro _ ⟨⟩
  rw [low_add]
  exact limb_add_lt_left_iff_lt_right ..

end Sys2Proof.Machine

/-! SUPPORT. The shift functions in each range of the amount and bit by bit, the contract of the three shifts
in their terms, and the obligations on the shifters. -/

namespace Sys2Proof.Machine

/-! ### The limb formulas in each range of the amount (R170, R174, R178) -/

section
variable {n : Nat} (v : Word)

/-- The amounts that shift every bit out. -/
theorem shifts_of_128_le (h : 128 ≤ n) : shl v n = fromParts 0 0 ∧ shr v n = fromParts 0 0 ∧
    sar v n = fromParts (fillLimb (isNegative v)) (fillLimb (isNegative v)) := by
  simp only [shl, shr, sar, if_pos h, and_self]

theorem shifts_by_zero : shl v 0 = v ∧ shr v 0 = v ∧ sar v 0 = v := ⟨rfl, rfl, rfl⟩

/-- The amounts that move one limb into the other. -/
theorem shifts_of_64_le (h : 64 ≤ n) (hn : n ≤ 127) : shl v n = fromParts (low v <<< (n - 64)) 0 ∧
    shr v n = fromParts 0 (high v >>> (n - 64)) ∧
    sar v n = fromParts (fillLimb (isNegative v)) (sar64 (high v) (n - 64)) := by
  have h128 : ¬128 ≤ n := by omega
  have h0 : n ≠ 0 := by omega
  simp only [shl, shr, sar, if_neg h128, if_neg h0, if_pos h, and_self]

/-- The amounts that move bits across the limb boundary. -/
theorem shifts_of_le_63 (h : 1 ≤ n) (hn : n ≤ 63) :
    shl v n = fromParts (high v <<< n ||| low v >>> (64 - n)) (low v <<< n) ∧
    shr v n = fromParts (high v >>> n) (low v >>> n ||| high v <<< (64 - n)) ∧
    sar v n = fromParts (sar64 (high v) n) (low v >>> n ||| high v <<< (64 - n)) := by
  have h128 : ¬128 ≤ n := by omega
  have h0 : n ≠ 0 := by omega
  have h64 : ¬64 ≤ n := by omega
  simp only [shl, shr, sar, if_neg h128, if_neg h0, if_neg h64, and_self]

end

/-- The signed value of a limb shifted right (R11). -/
theorem sar64_toInt (x : Limb) (k : Nat) : (sar64 x k).toInt = x.toInt / 2 ^ k := by
  rw [sar64, BitVec.toInt_sshiftRight, Int.shiftRight_eq_div_pow, Nat.cast_pow, Nat.cast_ofNat]

theorem fillLimb_eq (negative : Bool) :
    fillLimb negative = if negative then 0xFFFFFFFFFFFFFFFF else 0 := by
  cases negative <;> decide

theorem fromParts_fillLimb (negative : Bool) :
    fromParts (fillLimb negative) (fillLimb negative) = if negative then u128Max else 0 := by
  cases negative <;> decide

/-- The two right shifts differ in the bits they fill in, and the fill is the sign (R178). -/
theorem sar_eq_shr {v : Word} (h : isNegative v = false) (n : Nat) : sar v n = shr v n := by
  have hmsb : v.msb = false := h
  rw [sar_eq, shr_eq, BitVec.sshiftRight_eq_of_msb_false hmsb]

/-! ### The shift functions bit by bit (R172, R176, R180) -/

section
variable (v : Word) (n : Nat) {i : Nat} (hi : i < 128)
include hi

theorem shl_getLsbD : (shl v n).getLsbD i = (decide (n ≤ i) && v.getLsbD (i - n)) := by
  rw [shl_eq, BitVec.getLsbD_shiftLeft, decide_eq_true hi, Bool.true_and, ← decide_not,
    decide_eq_decide.mpr Nat.not_lt]

theorem sar_getLsbD :
    (sar v n).getLsbD i = if n + i < 128 then v.getLsbD (n + i) else isNegative v := by
  rw [sar_eq, BitVec.getLsbD_sshiftRight, decide_eq_false hi.not_ge, Bool.not_false, Bool.true_and]
  rfl

end

/-- Past the top bit of the word the shifted bit is zero. -/
theorem shr_getLsbD (v : Word) (n i : Nat) :
    (shr v n).getLsbD i = (decide (n + i < 128) && v.getLsbD (n + i)) := by
  rw [shr_eq, BitVec.getLsbD_ushiftRight]
  by_cases h : n + i < 128
  · rw [decide_eq_true h, Bool.true_and]
  · rw [decide_eq_false h, Bool.false_and, BitVec.getLsbD_of_ge v _ (Nat.le_of_not_lt h)]

/-! ### The contract of the shifts, and the words with `S = 1` of SHL -/

theorem contract_shl (n : Nat) (a b : Word) : contract (.shl n) a b = .word (shl a n) := by
  rw [contract, shl_eq_ofNat]

theorem contract_shr (n : Nat) (a b : Word) : contract (.shr n) a b = .word (shr a n) := by
  rw [contract, shr_eq_ofNat]

theorem contract_sar (n : Nat) (a b : Word) : contract (.sar n) a b = .word (sar a n) := by
  rw [contract, sar_eq_ofInt]

/-- A left shift has no signed form (R172), so its words with `S = 1` are reserved (R76). -/
theorem decode_shl_signed (n : BitVec 8) : decode (0x6100 ||| n.setWidth 16) = .reserved .sign := by
  revert n; decide +kernel

/-! ### The obligations -/

/-- Settles O43: the values by the laws of the three functions, the limbs range by range. -/
theorem shiftFunctionsForEveryAmount : Obligations.ShiftFunctionsForEveryAmount := by
  intro v n
  refine ⟨shl_toNat v n, shr_toNat v n, sar_toInt v n, fun hpos => sar_eq_shr hpos n, fun h => ?_,
    fun h => h ▸ shifts_by_zero v, fun h hn => ?_, fun h hn => ?_⟩
  · obtain ⟨hshl, hshr, hsar⟩ := shifts_of_128_le v h
    exact ⟨hshl.trans fromParts_zero, hshr.trans fromParts_zero, hsar.trans (fromParts_fillLimb _)⟩
  · obtain ⟨hshl, hshr, hsar⟩ := shifts_of_64_le v h hn
    rw [hsar, high_fromParts, low_fromParts]
    exact ⟨hshl, hshr, fillLimb_eq _, sar64_toInt ..⟩
  · obtain ⟨hshl, hshr, hsar⟩ := shifts_of_le_63 v h hn
    rw [hsar, high_fromParts, low_fromParts]
    exact ⟨hshl, hshr, sar64_toInt .., rfl⟩

/-- Settles O44: the response is `shl` of the left operand, whose value and bits are known. -/
theorem shlShiftsLeft : Obligations.ShlShiftsLeft :=
  ⟨spelledByShift_of_encode (op := .shl) rfl, ShiftOp.shl.format_instr, decode_shl_signed,
    fun n s r rest hs => ⟨shl r.a n, answersWith_of_contract (contract_shl n) s r rest hs,
      shl_toNat .., fun _ hi => shl_getLsbD _ _ hi⟩⟩

/-- Settles O45: the response is `shr` of the left operand, whose value and bits are known. -/
theorem shrShiftsRightFillingZeros : Obligations.ShrShiftsRightFillingZeros :=
  ⟨spelledByShift_of_encode (op := .shr) rfl, ShiftOp.shr.format_instr,
    fun n s r rest hs => ⟨shr r.a n, answersWith_of_contract (contract_shr n) s r rest hs,
      shr_toNat .., fun i _ => shr_getLsbD r.a n i⟩⟩

/-- Settles O46: the response is `sar` of the left operand, whose value and bits are known. -/
theorem sarShiftsRightFillingTheSign : Obligations.SarShiftsRightFillingTheSign :=
  ⟨spelledByShift_of_encode (op := .sar) rfl, ShiftOp.sar.format_instr,
    fun n s r rest hs => ⟨sar r.a n, answersWith_of_contract (contract_sar n) s r rest hs,
      sar_toInt .., fun _ hi => sar_getLsbD _ _ hi⟩⟩

end Sys2Proof.Machine

/-! SUPPORT. The half-limb products as integers, the limbs of a product of words, and the obligations on the
multiplier. -/

namespace Sys2Proof.Machine

/-! ### The half-limb arrangement (R190), read as integers -/

/-- The four cross products, weighted by the places of their halves, make up the product. -/
theorem mul_eq_sum_halves (x y : Nat) :
    x * y = x / 2 ^ 32 * (y / 2 ^ 32) * 2 ^ 64 + x % 2 ^ 32 * (y / 2 ^ 32) * 2 ^ 32 +
      x / 2 ^ 32 * (y % 2 ^ 32) * 2 ^ 32 + x % 2 ^ 32 * (y % 2 ^ 32) := by
  conv_lhs => rw [← Nat.div_add_mod x (2 ^ 32), ← Nat.div_add_mod y (2 ^ 32)]
  ring

theorem halves_append_toNat (h l : HalfLimb) : (h ++ l : Limb).toNat = h.toNat * 2 ^ 32 + l.toNat := by
  rw [BitVec.toNat_append, Nat.shiftLeft_eq, Nat.mul_comm, ← Nat.two_pow_add_eq_or_of_lt l.isLt]

section
variable {x y : Limb} {p00 p01 p10 p11 mid : Nat}
  (h00 : p00 = x.toNat % 2 ^ 32 * (y.toNat % 2 ^ 32)) (h01 : p01 = x.toNat % 2 ^ 32 * (y.toNat / 2 ^ 32))
  (h10 : p10 = x.toNat / 2 ^ 32 * (y.toNat % 2 ^ 32)) (h11 : p11 = x.toNat / 2 ^ 32 * (y.toNat / 2 ^ 32))
  (hmid : mid = p00 / 2 ^ 32 + p01 % 2 ^ 32 + p10 % 2 ^ 32)
include h00 h01 h10

include h11 in
/-- Each cross product is a product of two halves, so it fits a limb. -/
theorem crossProducts_lt : p00 < 2 ^ 64 ∧ p01 < 2 ^ 64 ∧ p10 < 2 ^ 64 ∧ p11 < 2 ^ 64 := by
  have hx := x.isLt
  have hy := y.isLt
  have fits {u v : Nat} (hu : u < 2 ^ 32) (hv : v < 2 ^ 32) : u * v < 2 ^ 64 :=
    (halves_bound hu hv).trans_lt (by decide)
  subst h00 h01 h10 h11
  exact ⟨fits (by omega) (by omega), fits (by omega) (by omega), fits (by omega) (by omega),
    fits (by omega) (by omega)⟩

include hmid

/-- `lo = { mid[31:0], p00[31:0] }`: reducing `mid` to a limb first does not change its lower half. -/
theorem mul64x64_snd_toNat : (mul64x64 x y).2.toNat = mid % 2 ^ 32 * 2 ^ 32 + p00 % 2 ^ 32 := by
  simp only [mul64x64, halves_append_toNat, lowerHalf_toNat, upperHalf_toNat, mulHalves_toNat,
    BitVec.toNat_add, BitVec.toNat_ushiftRight, BitVec.toNat_setWidth, Nat.shiftRight_eq_div_pow,
    ← h00, ← h01, ← h10]
  omega

include h11

/-- `hi` does not wrap: the pair is exact (`mul64x64_exact`), so `hi` is what the product has left above
`lo`. -/
theorem mul64x64_fst_toNat :
    (mul64x64 x y).1.toNat = p11 + p01 / 2 ^ 32 + p10 / 2 ^ 32 + mid / 2 ^ 32 := by
  have hexact := mul64x64_exact x y
  rw [mul_eq_sum_halves x.toNat, ← h00, ← h01, ← h10, ← h11,
    mul64x64_snd_toNat h00 h01 h10 hmid] at hexact
  omega

end

/-! ### The limb formulas (R191), read off the product of words -/

section
variable (a b : Word)

theorem low_mul : low (a * b) = (mul64x64 (low a) (low b)).2 := by
  rw [← mulWord_eq, mulWord, low_fromParts]

theorem high_mul :
    high (a * b) = (mul64x64 (low a) (low b)).1 + high a * low b + low a * high b := by
  rw [← mulWord_eq, mulWord, high_fromParts]

theorem contract_mul : contract .mul a b = .word (a * b) := by
  rw [contract, ← mulWord_eq_ofNat, mulWord_eq]

theorem responseOf_mul : responseOf .mul a b = some (.word (a * b)) := by
  rw [responseOf_eq_contract, contract_mul]

end

/-! ### The obligations -/

/-- Settles O26: the bounds from the halves', `lo` read off the arrangement, `hi` from the exact product. -/
theorem halfLimbProductIsExact : Obligations.HalfLimbProductIsExact := by
  intro x y p00 p01 p10 p11 mid h00 h01 h10 h11 hmid
  obtain ⟨hp00, hp01, hp10, hp11⟩ := crossProducts_lt h00 h01 h10 h11
  have hmidlt : mid < 3 * 2 ^ 32 := by omega
  exact ⟨⟨hp00, hp01, hp10, hp11, hmidlt⟩, mul64x64_snd_toNat h00 h01 h10 hmid,
    mul64x64_fst_toNat h00 h01 h10 h11 hmid, mul64x64_exact x y⟩

/-- Settles O27: the response is the product of words, and each clause a law of that product. -/
theorem mulIsTheLowHalfOfTheProduct : Obligations.MulIsTheLowHalfOfTheProduct := by
  refine ⟨spelledBy_of_encode (by decide) rfl, rfl, by decide, fun s r rest hs =>
    ⟨r.a * r.b, answersWith_of_contract contract_mul s r rest hs, low_mul .., ?_, BitVec.toNat_mul ..⟩⟩
  simp only [high_mul, BitVec.toNat_add, BitVec.toNat_mul, Nat.mod_add_mod, Nat.add_mod_mod]

/-- Settles O28: the response is the product of words, which commutes and wraps the signed product. -/
theorem multiplicationCommutesAndIsSignedToo : Obligations.MultiplicationCommutesAndIsSignedToo := by
  intro a b
  refine ⟨?_, a * b, responseOf_mul a b, BitVec.toInt_mul ..⟩
  rw [responseOf_mul, responseOf_mul, mul_comm]

end Sys2Proof.Machine

/-! SUPPORT. The divider in the terms of division of words (R201, R204), at a zero divisor under each reading of
`MOD_BY_ZERO`, and the obligations on the divider. -/

namespace Sys2Proof.Machine

section
variable {a b : Word}

/-! ### A divisor other than zero -/

theorem toInt_natAbs_ne_zero (hb : b ≠ 0) : b.toInt.natAbs ≠ 0 :=
  (toInt_natAbs_eq_zero_iff b).not.mpr (BitVec.toNat_ne_iff_ne.mpr hb)

theorem abs_ne_zero (hb : b ≠ 0) : Machine.abs b ≠ 0 := by
  rw [← BitVec.toNat_ne_iff_ne, abs_toNat]
  exact toInt_natAbs_ne_zero hb

/-- The unsigned kernel is division of words, under either reading of the parameter (R201). -/
theorem udivmod_of_ne_zero (choice : ModByZero) (hb : b ≠ 0) : udivmod choice a b = (a / b, a % b) := by
  obtain ⟨hq, hr⟩ := udivmod_toNat choice (a := a) (BitVec.toNat_ne_iff_ne.mpr hb)
  exact Prod.ext (BitVec.eq_of_toNat_eq hq) (BitVec.eq_of_toNat_eq hr)

/-- The signs of R204 are those of truncating division of words, under either reading of the parameter. -/
theorem sdivmod_of_ne_zero (choice : ModByZero) (hb : b ≠ 0) :
    sdivmod choice a b = (a.sdiv b, a.srem b) := by
  have hmsb (v : Word) : isNegative v = v.msb := rfl
  rw [sdivmod, udivmod_of_ne_zero choice (abs_ne_zero hb), BitVec.sdiv_eq, BitVec.srem_eq]
  simp only [Machine.abs, neg_eq, hmsb]
  cases a.msb <;> cases b.msb <;> rfl

/-! ### A zero divisor -/

theorem udivmod_by_zero_default (a : Word) : udivmod .zero a 0 = (0, 0) := by
  rw [udivmod_zero .zero rfl, zeroDivisorRemainder, fromParts_zero]

theorem sdivmod_by_zero_default (a : Word) : sdivmod .zero a 0 = (0, 0) := by
  simp [sdivmod_default]

theorem udivmod_by_zero_dividend (a : Word) : udivmod .dividend a 0 = (0, a) :=
  udivmod_zero .dividend rfl

/-- The remainder is the dividend's absolute value with the dividend's sign, so the dividend itself. -/
theorem sdivmod_by_zero_dividend (a : Word) : sdivmod .dividend a 0 = (0, a) := by
  have habs : Machine.abs 0 = 0 := by decide
  have hneg : neg 0 = 0 := by decide
  rw [sdivmod, habs, udivmod_by_zero_dividend, hneg, ite_self, Machine.abs]
  cases isNegative a with
  | false => rfl
  | true => exact congrArg (Prod.mk 0) (by rw [if_pos rfl, if_pos rfl, neg_eq, neg_eq, neg_neg])

/-! ### What truncating division of words computes -/

/-- The only quotient that does not fit is `I128::MIN / −1` (R205). -/
theorem toInt_sdiv_of_not_overflow (h : ¬(a = i128Min ∧ b = u128Max)) :
    (a.sdiv b).toInt = a.toInt.tdiv b.toInt := by
  have hmin : BitVec.intMin 128 = i128Min := by decide
  have hmax : -1#128 = u128Max := by decide
  refine BitVec.toInt_sdiv_of_ne_or_ne a b ?_
  rw [hmin, hmax]
  exact not_and_or.mp h

theorem i128Min_sdiv_u128Max : i128Min.sdiv u128Max = i128Min := by decide

theorem toInt_srem_natAbs_lt (hb : b ≠ 0) : (a.srem b).toInt.natAbs < b.toInt.natAbs := by
  rw [BitVec.toInt_srem, Int.natAbs_tmod]
  exact Nat.mod_lt _ (Nat.pos_of_ne_zero (toInt_natAbs_ne_zero hb))

theorem srem_eq_zero_or_isNegative_eq (a b : Word) :
    a.srem b = 0 ∨ isNegative (a.srem b) = isNegative a := by
  by_cases h : a.srem b = 0
  · exact .inl h
  · have hmsb := BitVec.msb_srem (x := a) (y := b)
    rw [decide_eq_true h, Bool.and_true] at hmsb
    exact .inr hmsb

/-! ### The division identity (R208) -/

theorem udiv_mul_add_umod (a b : Word) : a / b * b + a % b = a := by
  apply BitVec.eq_of_toNat_eq
  rw [BitVec.toNat_add, BitVec.toNat_mul, BitVec.toNat_udiv, BitVec.toNat_umod, Nat.mod_add_mod,
    Nat.div_add_mod', Nat.mod_eq_of_lt a.isLt]

/-- Also where the quotient wraps, since the product is taken modulo `2^128` as well. -/
theorem sdiv_mul_add_srem (a b : Word) : a.sdiv b * b + a.srem b = a := by
  apply BitVec.eq_of_toInt_eq
  rw [BitVec.toInt_add, BitVec.toInt_mul, BitVec.toInt_sdiv, BitVec.toInt_srem, Int.bmod_mul_bmod,
    Int.bmod_add_bmod, Int.tdiv_mul_add_tmod, BitVec.toInt_bmod_cancel]

end

/-! ### The contract of the four operations as the functions of the unit -/

section
variable (a b : Word)

theorem contract_div : contract .div a b = .word (udivmod .zero a b).1 := by
  rw [contract, udivmod_default]

theorem contract_mod : contract .mod a b = .word (udivmod .zero a b).2 := by
  rw [contract, udivmod_default]

theorem contract_sdiv : contract .sdiv a b = .word (sdivmod .zero a b).1 := by
  rw [contract, sdivmod_default]

theorem contract_smod : contract .smod a b = .word (sdivmod .zero a b).2 := by
  rw [contract, sdivmod_default]

end

/-- Both sides of R208 for a pair `p` of a quotient and a remainder, from what is known of the pair at a zero
divisor and at any other. -/
theorem mul_add_of_divmod {a b : Word} {p : Word × Word} (hzero : b = 0 → p = (0, 0))
    (hne : b ≠ 0 → p.1 * b + p.2 = a) : p.1 * b + p.2 = if b = 0 then 0 else a := by
  by_cases hb : b = 0
  · rw [if_pos hb, hzero hb, zero_mul, zero_add]
  · rw [if_neg hb, hne hb]

/-! ### The obligations -/

/-- Settles O29: the long division is division of words, with zeros for a zero divisor. -/
theorem longDivisionIsFloorDivision : Obligations.LongDivisionIsFloorDivision := by
  intro a b
  refine ⟨fun hb => ?_, fun hb => hb ▸ udivmod_by_zero_default a⟩
  rw [udivmod_of_ne_zero .zero hb, BitVec.toNat_udiv, BitVec.toNat_umod]
  exact ⟨rfl, Nat.mod_eq_sub_div_mul, Nat.mod_lt _ (Nat.pos_of_ne_zero (BitVec.toNat_ne_iff_ne.mpr hb))⟩

/-- Settles O30: the response is the kernel's quotient. -/
theorem divIsUnsignedFloorDivision : Obligations.DivIsUnsignedFloorDivision := by
  refine ⟨spelledBy_of_encode (by decide) rfl, rfl, fun s r rest hs =>
    ⟨_, answersWith_of_contract contract_div s r rest hs, fun hb => ?_, fun hb => ?_⟩⟩
  · rw [hb, udivmod_by_zero_default]
  · rw [udivmod_of_ne_zero .zero hb, BitVec.toNat_udiv]

/-- Settles O31: the response is the kernel's remainder. -/
theorem modIsUnsignedRemainder : Obligations.ModIsUnsignedRemainder := by
  refine ⟨spelledBy_of_encode (by decide) rfl, rfl, fun s r rest hs =>
    ⟨_, answersWith_of_contract contract_mod s r rest hs, fun hb => ?_, fun hb => ?_⟩⟩
  · rw [hb, udivmod_by_zero_default]
  · rw [udivmod_of_ne_zero .zero hb, BitVec.toNat_umod]

/-- Settles O32: the delegation is the definition, and the result is truncating division of words. -/
theorem signedDivisionTruncatesTowardZero : Obligations.SignedDivisionTruncatesTowardZero := by
  refine ⟨fun _ _ => ⟨rfl, rfl⟩, by decide, fun a b hb h => ?_⟩
  rw [sdivmod_of_ne_zero .zero hb, toInt_sdiv_of_not_overflow h]
  refine ⟨rfl, ?_, toInt_srem_natAbs_lt hb, srem_eq_zero_or_isNegative_eq a b⟩
  rw [BitVec.toInt_srem, Int.tmod_def, mul_comm]

/-- Settles O33: the response is the quotient of the signed path. -/
theorem sdivIsTruncatingDivision : Obligations.SdivIsTruncatingDivision := by
  refine ⟨spelledBy_of_encode (by decide) rfl, rfl, fun s r rest hs =>
    ⟨_, answersWith_of_contract contract_sdiv s r rest hs, fun hb => ?_, fun ha hb => ?_, fun hb h => ?_⟩⟩
  · rw [hb, sdivmod_by_zero_default]
  · rw [ha, hb, sdivmod_of_ne_zero .zero (by decide), i128Min_sdiv_u128Max]
  · rw [sdivmod_of_ne_zero .zero hb, toInt_sdiv_of_not_overflow h]

/-- Settles O34: the response is the remainder of the signed path. -/
theorem smodIsTruncatingRemainder : Obligations.SmodIsTruncatingRemainder := by
  refine ⟨spelledBy_of_encode (by decide) rfl, rfl, fun s r rest hs =>
    ⟨_, answersWith_of_contract contract_smod s r rest hs, fun hb => ?_, fun hb => ?_⟩⟩
  · rw [hb, sdivmod_by_zero_default]
  · rw [sdivmod_of_ne_zero .zero hb, BitVec.toInt_srem]

/-- Settles O35: the four responses are those of the ring of words, and the identity is that of division of
words. -/
theorem divisionIdentity : Obligations.DivisionIdentity := by
  intro a b
  have hu : (udivmod .zero a b).1 * b + (udivmod .zero a b).2 = if b = 0 then 0 else a :=
    mul_add_of_divmod (fun hb => by rw [hb, udivmod_by_zero_default]) fun hb => by
      rw [udivmod_of_ne_zero .zero hb, udiv_mul_add_umod]
  have hs : (sdivmod .zero a b).1 * b + (sdivmod .zero a b).2 = if b = 0 then 0 else a :=
    mul_add_of_divmod (fun hb => by rw [hb, sdivmod_by_zero_default]) fun hb => by
      rw [sdivmod_of_ne_zero .zero hb, sdiv_mul_add_srem]
  simp only [responseOf_eq_contract, contract_div, contract_mod, contract_sdiv, contract_smod, contract_mul,
    contract_add]
  exact ⟨⟨_, _, _, rfl, rfl, rfl, by rw [hu]⟩, ⟨_, _, _, rfl, rfl, rfl, by rw [hs]⟩⟩

/-- Settles O36: the parameter is read at a zero divisor only. -/
theorem dividendReadingOfModByZero : Obligations.DividendReadingOfModByZero := by
  intro a b
  refine ⟨udivmod_by_zero_dividend a, sdivmod_by_zero_dividend a, fun hb => ⟨?_, ?_⟩⟩
  · rw [udivmod_of_ne_zero .dividend hb, udivmod_of_ne_zero .zero hb]
  · rw [sdivmod_of_ne_zero .dividend hb, sdivmod_of_ne_zero .zero hb]

end Sys2Proof.Machine

/-! SUPPORT. The signed adapter's functions as the library's negation and absolute value of words (R230, R232), and
the obligations on it. -/

namespace Sys2Proof.Machine

section
variable {v : Word}

theorem intMin_eq_i128Min : BitVec.intMin 128 = i128Min := by decide

/-! ### Negation (R230, R231) -/

theorem responseOf_zero_sub (v : Word) : responseOf .sub (fromParts 0 0) v = some (.word (neg v)) := by
  rw [responseOf_eq_contract, contract_zero_sub]

theorem responseOf_add_not_one (v : Word) : responseOf .add (~~~v) (fromParts 0 1) = some (.word (neg v)) := by
  rw [responseOf_eq_contract, contract_add_not_one]

theorem neg_i128Min : neg i128Min = i128Min := by
  rw [neg_eq, ← intMin_eq_i128Min, BitVec.neg_intMin]

theorem neg_toInt_of_ne_i128Min (hv : v ≠ i128Min) : (neg v).toInt = -v.toInt := by
  rw [neg_eq, BitVec.toInt_neg_of_ne_intMin (intMin_eq_i128Min ▸ hv)]

/-- `2^128 − U(v)` is `U(v)` again, modulo `2^128`, for the values `0` and `2^127` only. -/
theorem neg_eq_self_iff (v : Word) : neg v = v ↔ v = u128Min ∨ v = i128Min := by
  constructor
  · intro hself
    have hnat : (2 ^ 128 - v.toNat) % 2 ^ 128 = v.toNat := by rw [← BitVec.toNat_neg, ← neg_eq, hself]
    have hcases : v.toNat = 0 ∨ v.toNat = 2 ^ 127 := by omega
    exact hcases.imp BitVec.eq_of_toNat_eq BitVec.eq_of_toNat_eq
  · rintro (rfl | rfl)
    · decide
    · exact neg_i128Min

/-! ### The magnitude (R232) -/

theorem abs_eq (v : Word) : Machine.abs v = v.abs := by
  rw [BitVec.abs_eq, Machine.abs, neg_eq]
  rfl

theorem abs_toInt_nonneg (hv : v ≠ i128Min) : 0 ≤ (Machine.abs v).toInt := by
  rw [abs_eq, BitVec.toInt_abs_eq_natAbs_of_ne_intMin (intMin_eq_i128Min ▸ hv)]
  exact Int.natCast_nonneg _

theorem abs_i128Min : Machine.abs i128Min = i128Min := by
  rw [abs_eq, ← intMin_eq_i128Min, BitVec.abs_intMin]

theorem abs_of_toInt_neg (hv : v.toInt < 0) : Machine.abs v = neg v :=
  if_pos ((isNegative_iff_toInt v).mpr hv)

theorem abs_of_toInt_nonneg (hv : ¬v.toInt < 0) : Machine.abs v = v :=
  if_neg ((isNegative_iff_toInt v).not.mpr hv)

end

/-! ### `ABS d, a` (R82): SLT with zero, then `NEG` of a negative word -/

section
variable {h : HostState} {x : String} {v : Word} (d : String)

theorem contract_slt_zero (v : Word) : contract .slt v (fromParts 0 0) = .truth (decide (v.toInt < 0)) := by
  rw [contract, fromParts_zero]
  rfl

theorem runPseudo_abs (hx : h.store.read x = some (.word v)) (hs : h.core.requests = []) :
    runPseudo (.abs d (.name x)) h =
      if v.toInt < 0 then
        runPseudo (.neg d (.name x)) ⟨h.store, h.core.transacted .slt v (fromParts 0 0)⟩
      else .next ⟨h.store.write d (.word v), h.core.transacted .slt v (fromParts 0 0)⟩ := by
  simp only [runPseudo, readOperand_of_word hx, andThen_next, send_of_idle (i := .slt) v _ hs rfl,
    sendForTruth, contract_slt_zero, decide_eq_true_eq]

end

/-! ### The obligations -/

/-- Settles O50: both sequences answer with the two's complement, and each clause is a law of it. -/
theorem negationWrapsAndBothFormsAgree : Obligations.NegationWrapsAndBothFormsAgree := by
  intro v
  refine ⟨⟨~~~v, responseOf_eq_contract .not v 0, responseOf_add_not_one v⟩, responseOf_zero_sub v, ?_,
    neg_toInt_of_ne_i128Min, neg_i128Min, ?_, neg_eq_self_iff v⟩
  · rw [neg_eq, BitVec.toNat_neg]
  · rw [neg_eq, neg_eq, neg_neg]

/-- Settles O51: the function is the library's absolute value; the pseudo-instruction is one SLT, after which
a negative word takes the two transactions of `NEG`. -/
theorem absIsTheMagnitude : Obligations.AbsIsTheMagnitude := by
  refine ⟨fun v => ⟨rfl, abs_toNat v, abs_toInt_nonneg⟩, abs_i128Min, fun h d x v hx hs => ?_⟩
  rw [runPseudo_abs d hx hs]
  by_cases hneg : v.toInt < 0
  · obtain ⟨⟨c, hrun, hidle, hlength⟩, -⟩ := negPseudoInstructionRuns
      ⟨h.store, h.core.transacted .slt v (fromParts 0 0)⟩ d x v hx (State.transacted_requests ..)
    rw [State.transacted_history_length] at hlength
    rw [if_pos hneg, if_pos hneg, abs_of_toInt_neg hneg]
    exact ⟨c, hrun, hidle, hlength⟩
  · rw [if_neg hneg, if_neg hneg, abs_of_toInt_nonneg hneg]
    exact ⟨_, rfl, rfl, State.transacted_history_length ..⟩

end Sys2Proof.Machine

/-! SUPPORT. The decimal digits that the formatter's characters spell (R250), and the obligations on the
formatter. -/

namespace Sys2Proof.Machine

/-- The decimal digits `ds`, most significant first and none of them superfluous, read as `m`, and their bytes
are the contract's characters. -/
structure SpellsDecimal (ds : List Nat) (m : Nat) : Prop where
  isDigit : ∀ d ∈ ds, d < 10
  value : ds.foldl (fun n d => 10 * n + d) 0 = m
  canonical : ds = [0] ∨ ds.head? ≠ some 0
  bytes : decimalChars m = ds.map digitByte

theorem spellsDecimal_singleton {m : Nat} (h : m < 10) : SpellsDecimal [m] m where
  isDigit := by simpa using h
  value := by simp
  canonical := by
    by_cases hm : m = 0
    · exact .inl (by rw [hm])
    · exact .inr (by simpa using hm)
  bytes := decimalChars_small h

section
variable {ds : List Nat} {m : Nat} (h : SpellsDecimal ds m)
include h

theorem SpellsDecimal.length_eq : ds.length = (decimalChars m).length := by
  rw [h.bytes, List.length_map]

theorem SpellsDecimal.length_pos : 1 ≤ ds.length := h.length_eq ▸ decimalChars_length_pos m

theorem SpellsDecimal.length_le (hm : m < 10 ^ 39) : ds.length ≤ 39 :=
  h.length_eq ▸ decimalChars_length_le hm

/-- Only zero is spelled with a leading zero. -/
theorem SpellsDecimal.head_ne_zero (hm : m ≠ 0) : ds.head? ≠ some 0 :=
  h.canonical.resolve_left fun hds => hm (by rw [← h.value, hds]; rfl)

end

/-- One digit more, as the loop of R250 finds it. -/
theorem SpellsDecimal.append {ds : List Nat} {m : Nat} (hm : 10 ≤ m) (h : SpellsDecimal ds (m / 10)) :
    SpellsDecimal (ds ++ [m % 10]) m where
  isDigit := List.forall_mem_append.mpr ⟨h.isDigit, by simpa using Nat.mod_lt m (by decide)⟩
  value := by rw [List.foldl_append, h.value, List.foldl_cons, List.foldl_nil, Nat.div_add_mod]
  canonical := by
    have hds : ds ≠ [] := List.ne_nil_of_length_pos h.length_pos
    rw [List.head?_append_of_ne_nil _ hds]
    exact .inr (h.head_ne_zero (by omega))
  bytes := by rw [decimalChars_step hm, h.bytes, List.map_append, List.map_singleton]

/-- Every number is spelled so, by induction on its tenth part. -/
theorem exists_spellsDecimal (m : Nat) : ∃ ds, SpellsDecimal ds m := by
  induction m using Nat.strongRecOn with
  | ind m ih =>
    by_cases hm : m < 10
    · exact ⟨_, spellsDecimal_singleton hm⟩
    · obtain ⟨ds, h⟩ := ih (m / 10) (by omega)
      exact ⟨_, h.append (by omega)⟩

theorem toNat_lt_ten_pow (v : Word) : v.toNat < 10 ^ 39 := v.isLt.trans (by decide)

theorem toInt_natAbs_lt_ten_pow (v : Word) : v.toInt.natAbs < 10 ^ 39 :=
  abs_toNat v ▸ toNat_lt_ten_pow (Machine.abs v)

/-- The contract's characters of SFMT: the sign, then the digits of the magnitude. -/
theorem contract_sfmt_of_spellsDecimal {a : Word} {ds : List Nat} (h : SpellsDecimal ds a.toInt.natAbs)
    (b : Word) : contract .sfmt a b =
      .text ((if a.toInt < 0 then [Config.minusSign] else []) ++ ds.map digitByte) := by
  rw [contract, h.bytes]
  split <;> rfl

/-- Settles O47: the response is the contract's characters, which are the bytes of the digits that spell the
value. -/
theorem fmtWritesTheCanonicalNumeral : Obligations.FmtWritesTheCanonicalNumeral := by
  refine ⟨spelledBy_of_encode (by decide) rfl, rfl, fun s r rest hs => ?_⟩
  obtain ⟨ds, h⟩ := exists_spellsDecimal r.a.toNat
  have hexec : exec .fmt s = .next (s.answered r (.text (ds.map digitByte)) rest) := by
    rw [exec_cons .fmt hs, contract, h.bytes]
  refine ⟨_, ds, hexec, h.isDigit, h.value, h.canonical, h.length_pos, h.length_le (toNat_lt_ten_pow r.a),
    ?_, fun k => rfl⟩
  rw [portLen, List.length_map]

/-- Settles O48: as for FMT, with the magnitude's digits behind the sign. -/
theorem sfmtWritesTheSignedNumeral : Obligations.SfmtWritesTheSignedNumeral := by
  refine ⟨spelledBy_of_encode (by decide) rfl, rfl, fun s r rest hs => ?_⟩
  obtain ⟨ds, h⟩ := exists_spellsDecimal r.a.toInt.natAbs
  have hexec := exec_cons .sfmt hs
  rw [contract_sfmt_of_spellsDecimal h] at hexec
  refine ⟨_, ds, hexec, h.isDigit, h.value, h.canonical, h.length_pos,
    h.length_le (toInt_natAbs_lt_ten_pow r.a), ?_, fun k => rfl⟩
  rw [portLen, List.length_append, List.length_map]
  split
  · rw [List.length_singleton, Nat.add_comm]
  · rw [List.length_nil, Nat.zero_add]

end Sys2Proof.Machine

/-! SUPPORT. Where a host's read of an unwritten name shows (R291), and the obligations on faults and on a
request made too early. -/

namespace Sys2Proof.Machine

/-! ### Reading an unwritten name -/

section
variable {st : Store} {x : String} (hx : st.read x = none)
include hx

theorem readValue_of_unwritten : readValue st x = .fault (.unwrittenValue x) := by
  rw [readValue, hx]

theorem readOperand_of_unwritten : readOperand st (.name x) = .fault (.unwrittenValue x) := by
  rw [readOperand, readValue_of_unwritten hx, andThen_fault]

theorem readTruth_of_unwritten : readTruth st x = .fault (.unwrittenValue x) := by
  rw [readTruth, readValue_of_unwritten hx, andThen_fault]

theorem readNative_of_unwritten : readNative st x = .fault (.unwrittenValue x) := by
  rw [readNative, readValue_of_unwritten hx, andThen_fault]

theorem readText_of_unwritten : readText st x = .fault (.unwrittenValue x) := by
  rw [readText, readValue_of_unwritten hx, andThen_fault]

end

/-! ### A fault in reading an operand is the line's or the pseudo-instruction's -/

/-- The operand a line reads first. -/
def Line.firstOperand : Line → Operand
  | .two _ _ a _ => a
  | .one _ _ a => a
  | .shift _ _ a _ => a

/-- The operand a pseudo-instruction reads first. -/
def Pseudo.firstOperand : Pseudo → Operand
  | .neg _ a => a
  | .negBySub _ a => a
  | .abs _ a => a
  | .isZero _ a => a
  | .ne _ a _ => a

section
variable {h : HostState} {e : Fault}

theorem runLine_of_first_fault {l : Line} {i : Instr} (hi : lineInstr l = .next i)
    (ha : readOperand h.store l.firstOperand = .fault e) : runLine l h = .fault e := by
  rw [runLine, hi, andThen_next]
  cases l with
  | two | one | shift =>
    rw [Line.firstOperand] at ha
    simp only [ha, andThen_fault]

theorem runPseudo_of_first_fault {p : Pseudo} (ha : readOperand h.store p.firstOperand = .fault e) :
    runPseudo p h = .fault e := by
  cases p with
  | neg | negBySub | abs | isZero | ne =>
    rw [Pseudo.firstOperand] at ha
    rw [runPseudo, ha, andThen_fault]

variable {a b : Operand} {v : Word} (d : String)

theorem runLine_two_of_second_fault {i : Instr} (hi : formatOf i = .r)
    (ha : readOperand h.store a = .next v) (hb : readOperand h.store b = .fault e) :
    runLine (.two i d a b) h = .fault e := by
  simp only [runLine, lineInstr, if_pos hi, andThen_next, ha, hb, andThen_fault]

theorem runPseudo_ne_of_second_fault (ha : readOperand h.store a = .next v)
    (hb : readOperand h.store b = .fault e) : runPseudo (.ne d a b) h = .fault e := by
  rw [runPseudo, ha, andThen_next, hb, andThen_fault]

end

/-! ### The obligations -/

/-- Settles O60: the fault of the read passes through whatever the script does with the value. -/
theorem unwrittenHostValueFaults : Obligations.UnwrittenHostValueFaults := by
  intro h x hx
  have hoperand := readOperand_of_unwritten hx
  have hnative := readNative_of_unwritten hx
  have htext := readText_of_unwritten hx
  have htruth := readTruth_of_unwritten hx
  refine ⟨fun i d b hi => runLine_of_first_fault (if_pos hi) hoperand,
    fun i d a v hi ha => runLine_two_of_second_fault d hi ha hoperand,
    fun i d hi => runLine_of_first_fault (if_pos hi) hoperand,
    fun op d n h0 hn => runLine_of_first_fault (i := op.instr n.toNat) ?_ hoperand,
    fun d b p hp => runPseudo_of_first_fault ?_,
    fun d a v ha => runPseudo_ne_of_second_fault d ha hoperand,
    fun y hi lo => ?_, fun y n hy => ?_, fun a v ha => ?_, fun k d e he => ?_, fun k yes no => ⟨?_, ?_⟩,
    fun k body g hbody => ?_⟩
  · rw [lineInstr, shiftAmount_in_range h0 hn, andThen_next]
  · simp only [List.mem_cons, List.not_mem_nil, or_false] at hp
    obtain rfl | rfl | rfl | rfl | rfl := hp <;> exact hoperand
  · simp only [List.forall_mem_cons, wireValue, hoperand, hnative, andThen_fault, true_and]
    exact List.forall_mem_nil _
  · rw [wireValue, hy, andThen_next, hnative, andThen_fault]
  · rw [wireValue, ha, andThen_next, htext, andThen_fault]
  · rw [runScript, he, andThen_fault]
  · rw [runScript, htruth, andThen_fault]
  · rw [runScript, htruth, andThen_fault]
  · rw [runScript, hbody, andThen_next, htruth, andThen_fault]

/-- Settles O10: a step is refused or it is an operation on a standing request, which answers as the contract
says. -/
theorem noOperationFaultsOrFailsToRespond : Obligations.NoOperationFaultsOrFailsToRespond := by
  refine ⟨fun s e => ?_, fun i s r rest hs => ⟨_, _, exec_cons i hs, rfl, responseKind_contract i r.a r.b⟩⟩
  obtain ⟨-, hstep⟩ | ⟨r, rest, hs, ⟨i, -, hstep⟩ | ⟨why, -, hstep⟩⟩ := step_cases s
  · rw [hstep]
    nofun
  · rw [hstep, exec_cons i hs]
    nofun
  · rw [hstep]
    nofun

/-- Settles O19: `present` looks at whether a request stands, and changes nothing but the requests. -/
theorem noSecondRequestBeforeTheResponse : Obligations.NoSecondRequestBeforeTheResponse :=
  fun _ r => ⟨fun hbusy => if_neg hbusy, fun hidle => ⟨_, present_of_idle hidle r, rfl, rfl, rfl⟩⟩

end Sys2Proof.Machine
